-- ==== Sys2Proof/Word.lean ====
section
/-! DEFINITION. The two widths of the machine and the narrowing of an exact integer to a cell (00_scope.md R5, R7). -/

namespace Sys2Proof

/-- A cell, a register or the instruction pointer: 32 bits, read as signed two's complement by `BitVec.toInt` (R7). -/
abbrev Word := BitVec 32

/-- A byte of the program string or of an I/O stream (R11, R46). -/
abbrev Byte := BitVec 8

/-- `wrap32 v` of R7: the one `Word` congruent to `v` modulo 2^32. -/
def wrap32 (v : Int) : Word := BitVec.ofInt 32 v

end Sys2Proof
end

