-- ==== Sys2Proof/Config.lean ====
section
/-! DEFINITION. What is fixed when a machine is created: the sizes of R5 and R6, and the token grammar of R6 and R114.
The sizes of one machine stand in its State (ROOF, BOTTOM, has_stack); here are the bounds on them and the spec's defaults. -/

namespace Sys2Proof

/-- The answer of an `IN_TOKEN` request (R11, R39, R114). -/
inductive TokenOutcome where
  | value (v : Word)
  | endOfInput
  | malformed
  deriving DecidableEq, Repr, Inhabited

/-- The answer of an `IN_BYTE` request (R11, R39, R115). -/
inductive ByteOutcome where
  | byte (b : Byte)
  | endOfInput
  deriving DecidableEq, Repr, Inhabited

/-- Which `IN_PARSE` a machine was created with (R6, D13): the spec's default, or any other function. The number keeps
several other functions apart. Log 6. -/
inductive Parser where
  | spec
  | other (n : Nat)
  deriving DecidableEq, Repr

namespace Config

/-- The loader's block in cells: 4096 bytes (R5). -/
def blockCells : Nat := 1024

/-- The largest image (R6, C10). -/
def maxMemCells : Nat := 2 ^ 31 - 1024

/-- The images R6 admits for a program of `p` cells and a stack capacity of `cap` cells. -/
abbrev validMemCells (memCells p cap : Nat) : Prop :=
  0 < memCells ∧ memCells % blockCells = 0 ∧ p + cap ≤ memCells ∧ memCells ≤ maxMemCells

/-- R6's default value of `MEM_CELLS` (D10). -/
def defaultMemCells (p cap : Nat) : Nat :=
  blockCells * max 1 ((p + cap + (blockCells - 1)) / blockCells)

/-- DESIGN CHOICE (log 2, unsafe for a claim that rests on it): the stack capacity of the machine `State.reset`, the
value 95_test_vectors.md takes where a vector gives none. -/
def resetStackCap : Nat := 0

/-- The image size of the machine `State.reset`: R6's default for an empty program (log 2, log 3). -/
def resetMemCells : Nat := defaultMemCells 0 resetStackCap

/-- The open parameter `IN_PARSE` where a machine was created with another grammar than the spec's default (R6, R114,
U9): the outcome, and how many bytes of the remaining input it consumes. Nothing is known of it. Log 6. -/
opaque inParse : Nat → List Byte → TokenOutcome × Nat

end Config

end Sys2Proof
end

