-- ==== Sys2Proof/Syntax.lean ====
section
/-! DEFINITION. The registers' names and the nineteen instructions (30_encoding.md R63, R64). -/

namespace Sys2Proof

/-- The four general registers (10_state.md R19). -/
inductive Reg where
  | A | B | C | D
  deriving DecidableEq, Repr

/-- One constructor per row of the opcode table (R64). An operand is the RAW cell of R70: a register operand may hold any
value, and one outside [0,3] is an instruction that raises ILLEGAL_OPERAND when it executes (R67, R72, R85). -/
inductive Instr where
  | nop
  | halt
  | add (reg : Word)
  | sub (reg : Word)
  | mul (reg : Word)
  | div (reg : Word)
  | inc (reg : Word)
  | dec (reg : Word)
  | loop (index : Word)
  | movr (reg num : Word)
  | load (reg num : Word)
  | store (reg num : Word)
  /-- The instruction `in`, whose name Lean keeps for itself. -/
  | inp (reg : Word)
  | get (reg : Word)
  | out (reg : Word)
  | put (reg : Word)
  | swap (reg1 reg2 : Word)
  | push (reg : Word)
  | pop (reg : Word)
  deriving DecidableEq, Repr

end Sys2Proof
end

