-- ==== Sys2Proof/Machine/State.lean ====
section
/-! DEFINITION. The state of one CORE instance (10_state.md R18 to R27), the host's device beside it, the reasons a step can
stop, and the machine right after creation (R42, R138). -/

namespace Sys2Proof.Machine

/-- The status register's eight values (R21). -/
inductive Status where
  | ok
  | halted
  | illegalInstruction
  | illegalOperand
  | invalidAddress
  | invalidStackOperation
  | divByZero
  | ioError
  deriving DecidableEq, Repr

/-- The register file (R19). -/
structure Regs where
  a : Word
  b : Word
  c : Word
  d : Word
  deriving DecidableEq, Repr

/-- The Memory Image (R43): pairs of a cell index and its cell, in one canonical form (`Memory.wf`). An index that no pair
lists reads 0, the contents R136 and R141 give a cell that nothing has written. Log 1. -/
abbrev Memory := List (Nat × Word)

/-- The canonical form: addresses strictly rising, and no pair that holds what an unlisted address reads as. -/
abbrev Memory.wf (m : Memory) : Prop :=
  m.Pairwise (fun x y => x.1 < y.1) ∧ ∀ e ∈ m, e.2 ≠ 0

/-- An output request the device accepted, as the core passed it on the port (R39, R116). -/
inductive OutItem where
  | dec (w : Word)
  | byte (b : Byte)
  deriving DecidableEq, Repr

/-- The host's I/O device (R113 to R116). It is no state of the core (R18); it stands here so that a step is a function of
the state. Log 4. -/
structure Device where
  /-- The remaining bytes of the input stream; none left is the end of input. -/
  input : List Byte
  /-- Whether the device answers the next input request (R113, D16). -/
  inputAnswers : Bool
  /-- The grammar `in` reads tokens by (R6, R114). No step changes it. -/
  parser : Parser
  /-- The output requests accepted so far, oldest first. -/
  output : List OutItem
  /-- Whether the device acknowledges the next output request (R113, R116). -/
  outputAnswers : Bool
  deriving DecidableEq, Repr

/-- The complete state (R18), each field under the spec's own name, and the host's device. -/
structure State where
  /-- A, B, C, D (R19). -/
  regs : Regs
  /-- The instruction pointer, a cell index (R22). -/
  ip : Word
  /-- The status register (R21). -/
  status : Status
  /-- The head of the stack (R26). -/
  top : Nat
  /-- The number of live stack cells (R26). -/
  size : Nat
  /-- ROOF, the lowest valid stack address, fixed at creation (R24). -/
  roof : Nat
  /-- BOTTOM, the highest cell of the image, fixed at creation (R24). -/
  bottom : Nat
  /-- Whether STACK_CAP > 0, fixed at creation (R25). -/
  hasStack : Bool
  /-- The Memory Image (R43). -/
  mem : Memory
  /-- The host's device (R39, R113). -/
  dev : Device
  deriving DecidableEq, Repr

/-- `MEM_CELLS`: BOTTOM is the image's last cell (R24). -/
def State.memCells (s : State) : Nat := s.bottom + 1

/-- `STACK_CAP`, the number of cells of [ROOF, BOTTOM] (R24, R44). -/
def State.stackCap (s : State) : Nat := s.bottom + 1 - s.roof

/-- Why a step has no next state. The machine's own errors are no faults: they are statuses, taken as a next state (R10,
R86, R126). -/
inductive Fault where
  /-- Raised by `in`, `get`, `out` and `put` where the device does not answer: the step never completes (R113, R92, U8
  `stuck`). The state the step started in is the state it waits in. Safe: the model stops where the hardware waits. Log 5. -/
  | ioBlocked
  /-- Raised by an access to a cell outside the image, which the spec says is never issued (R53): only in a state that
  creation, the host and steps never produce. Safe. Log 9. -/
  | noSuchCell
  deriving DecidableEq, Repr

/-- Why a call has no meaning. All but the first are the host calls the spec refuses; no instruction is refused. -/
inductive Refusal where
  /-- Raised by an arm of `exec` whose instruction has no meaning yet; none is left. Safe. -/
  | notModelled (mnemonic : String)
  /-- Raised by `get_register` and `set_register` with an index outside [0,3] (R40, D18). Safe. -/
  | invalidRegisterIndex
  /-- Raised by `create_memory` where the byte string is not made of whole cells: the load error (R137). Safe. -/
  | loadError
  /-- Raised by `create_memory` where R6 admits no such image (R6, U12). Safe. Log 13. -/
  | inadmissibleImage
  /-- Raised by `create` where the arguments are not those of the image (R139, U12). Safe. -/
  | createMismatch
  /-- Raised by `create_memory` and `create` where the host has no memory: no machine exists (R140, U14). Safe. -/
  | allocationFailed
  /-- Raised by every call on a destroyed machine (R143, U1, U2). Safe. -/
  | machineDestroyed
  deriving DecidableEq, Repr

/-- DESIGN CHOICE (log 4, unsafe for a claim that rests on it): the device of the machine `State.reset`, with an empty
input and the spec's default grammar, answering every request. -/
def Device.reset : Device :=
  { input := [], inputAnswers := true, parser := .spec, output := [], outputAnswers := true }

/-- The machine right after creation over the image of an empty program (R42, R138; vector LC1). The sizes are those of
log 2; the device is that of log 4; how a program comes to stand in the image is log 3. -/
def State.reset : State :=
  { regs := { a := 0, b := 0, c := 0, d := 0 }
    ip := 0
    status := .ok
    top := Config.resetMemCells - 1
    size := 0
    roof := Config.resetMemCells - Config.resetStackCap
    bottom := Config.resetMemCells - 1
    hasStack := decide (0 < Config.resetStackCap)
    mem := []
    dev := Device.reset }

end Sys2Proof.Machine
end

