-- ==== Sys2Proof/Machine/Flags.lean ====
section
/-! DEFINITION. The machine has no flags, condition codes or predicates (10_state.md R28), so no instruction writes one. What
takes their place are two tests that `alu_ops` answers within a step (R34). -/

namespace Sys2Proof.Machine

/-- `b_is_zero` and `c_is_zero` of R34: the value is 0. -/
def zeroTest (w : Word) : Bool := decide (w.toInt = 0)

/-- `byte_ok` of R34: the signed value lies in [0, 255]. -/
def byteTest (w : Word) : Bool := decide (0 ≤ w.toInt ∧ w.toInt ≤ 255)

end Sys2Proof.Machine
end

