-- ==== Sys2Proof/Machine/Alu.lean ====
section
/-! DEFINITION. The unit `alu_ops` (10_state.md R34, 41_arithmetic.md R93). -/

namespace Sys2Proof.Machine

/-- The operation input of `alu_ops` (R34). -/
inductive AluOp where
  | add | sub | mul | div | inc | dec
  deriving DecidableEq, Repr

/-- The outputs of `alu_ops` (R34). -/
structure AluOut where
  result : Word
  bIsZero : Bool
  cIsZero : Bool
  byteOk : Bool
  deriving DecidableEq, Repr

/-- The exact result of R93, before it is narrowed: `Int.tdiv` truncates toward zero, as `tdiv` of R93 does. -/
def AluOp.exact (op : AluOp) (a b : Int) : Int :=
  match op with
  | .add => a + b
  | .sub => a - b
  | .mul => a * b
  | .div => a.tdiv b
  | .inc => a + 1
  | .dec => a - 1

/-- `alu_ops` (R34): the exact result narrowed by `wrap32` (R93, R94 to R99), and the three tests. `c` is the register
file's tap `C_out`. -/
def aluOps (op : AluOp) (a b c : Word) : AluOut :=
  { result := wrap32 (op.exact a.toInt b.toInt)
    bIsZero := zeroTest b
    cIsZero := zeroTest c
    byteOk := byteTest b }

end Sys2Proof.Machine
end

