-- ==== Sys2Proof/Machine/Ops.lean ====
section
/-! DEFINITION. The named operations over memory, registers and the instruction pointer: cell accesses, the ports of
`register_file_4x32` and `program_counter`, the atomic commit of a step (R86), raising an error (R10, R126), and the
host's reset, the one way back from an error (R127, R141). -/

namespace Sys2Proof.Machine

/-- A step's outcome. -/
abbrev StepOutcome := Host.Outcome State Fault Refusal

/-! ### Memory cells -/

/-- What an image holds at a cell: what is listed, else 0 (R27, R136, R141). -/
def Memory.read : Memory → Nat → Word
  | [], _ => 0
  | (k, v) :: m, a => if a = k then v else Memory.read m a

/-- Write one cell and keep the canonical form: a cell that becomes 0 leaves the list. -/
def Memory.write : Memory → Nat → Word → Memory
  | [], a, v => if v = 0 then [] else [(a, v)]
  | (k, w) :: m, a, v =>
    if a < k then (if v = 0 then (k, w) :: m else (a, v) :: (k, w) :: m)
    else if a = k then (if v = 0 then m else (a, v) :: m)
    else (k, w) :: Memory.write m a v

/-- Zero the cells of [lo, hi] (R141). -/
def Memory.zeroRange (m : Memory) (lo hi : Nat) : Memory :=
  m.filter fun e => !(decide (lo ≤ e.1) && decide (e.1 ≤ hi))

/-- The cells of a list, laid out from one address on (R136). -/
def Memory.ofCells : Nat → List Word → Memory
  | _, [] => []
  | a, c :: cs => if c = 0 then Memory.ofCells (a + 1) cs else (a, c) :: Memory.ofCells (a + 1) cs

/-- Whether the image has a cell at an address (R43, R53). -/
def State.hasCell (s : State) (a : Int) : Bool := decide (0 ≤ a ∧ a < (s.memCells : Int))

/-- `MemRead(a, 1)` of R9 through the translator's identity mapping (R36, R55): the rest of the step goes on with the
cell's index and value. An access outside the image, which R53 says is never issued, is a fault. -/
def withCell (s : State) (a : Int) (k : Nat → Word → StepOutcome) : StepOutcome :=
  if s.hasCell a then k a.toNat (s.mem.read a.toNat) else .fault .noSuchCell

/-! ### Registers and the instruction pointer -/

/-- `x[i]` of R8. -/
def Regs.get (x : Regs) : Reg → Word
  | .A => x.a
  | .B => x.b
  | .C => x.c
  | .D => x.d

/-- `x[i] <- v` of R8. -/
def Regs.set (x : Regs) (i : Reg) (v : Word) : Regs :=
  match i with
  | .A => { x with a := v }
  | .B => { x with b := v }
  | .C => { x with c := v }
  | .D => { x with d := v }

/-- One write port of `register_file_4x32` (R33). -/
def Regs.port (x : Regs) : Option (Reg × Word) → Regs
  | none => x
  | some (i, v) => x.set i v

/-- `register_file_4x32`'s next contents (R33): reset clears the four registers, and on an equal index `wr1` wins. -/
def registerFile (reset : Bool) (wr0 wr1 : Option (Reg × Word)) (x : Regs) : Regs :=
  if reset then { a := 0, b := 0, c := 0, d := 0 } else (x.port wr0).port wr1

/-- `program_counter`'s next value (R32): `pc_reset` clears it, and `pc_we` with `pc_next` writes it. -/
def programCounter (reset : Bool) (pcNext : Option Word) (ip : Word) : Word :=
  if reset then 0 else pcNext.getD ip

/-- `ip + width`, computed exactly (R22, R23, R88). -/
def nextIp (s : State) (width : Nat) : Word := wrap32 (s.ip.toInt + width)

/-! ### The commit of a step -/

/-- The commit enables of one step, as `instruction_dispatcher` drives them (R38): what each unit writes at the end of the
step, none where it writes nothing. -/
structure Commit where
  /-- `pc_we` and `pc_next` (R32). -/
  pcNext : Option Word := none
  /-- Write port 0 of the register file (R33). -/
  wr0 : Option (Reg × Word) := none
  /-- Write port 1 of the register file (R33). -/
  wr1 : Option (Reg × Word) := none
  /-- `top_next` and `size_next` of the stack boundary checker (R35). -/
  stackNext : Option (Nat × Nat) := none
  /-- The memory port's write, at an image cell (R36). -/
  memWrite : Option (Nat × Word) := none
  /-- The dispatcher's `status` (R38). -/
  status : Option Status := none
  /-- The host's device after it answered the step's request (R39, R113). -/
  device : Option Device := none
  deriving DecidableEq, Repr

/-- The memory port's write (R36), if there is one. -/
def Memory.port (m : Memory) : Option (Nat × Word) → Memory
  | none => m
  | some (a, v) => m.write a v

/-- All of a step's writes at once (R12, R86). -/
def commit (c : Commit) (s : State) : State :=
  { s with
    regs := registerFile false c.wr0 c.wr1 s.regs
    ip := programCounter false c.pcNext s.ip
    status := c.status.getD s.status
    top := (c.stackNext.map Prod.fst).getD s.top
    size := (c.stackNext.map Prod.snd).getD s.size
    mem := s.mem.port c.memWrite
    dev := c.device.getD s.dev }

/-- A handler that succeeds: it commits its writes and advances the pointer by the instruction's width (R88). -/
def succeed (width : Nat) (c : Commit) (s : State) : StepOutcome :=
  .next (commit { c with pcNext := some (nextIp s width) } s)

/-- TAKING AN EXCEPTION (R10, R86, R126): `status` is set to the error, everything else keeps its value, and control goes
nowhere. That is a next state, in which no later step does anything (R79). -/
def raise (error : Status) (s : State) : StepOutcome :=
  .next (commit { status := some error } s)

/-- The Boolean a step returns, read off the state it leaves: R87's `step returned true` iff `status = OK`. -/
def stepReturns (t : State) : Bool := decide (t.status = .ok)

/-- THE RETURN FROM AN EXCEPTION: no instruction returns from one (R127). The host's `reset` (R141, R142) clears the
registers, the pointer, the status and the whole stack region, and keeps the instruction region, the sizes and the
host's streams. -/
def State.hostReset (s : State) : State :=
  { s with
    regs := registerFile true none none s.regs
    ip := programCounter true none s.ip
    status := .ok
    top := s.bottom
    size := 0
    mem := s.mem.zeroRange s.roof s.bottom }

end Sys2Proof.Machine
end

