-- ==== Sys2Proof/Machine/Operands.lean ====
section
/-! DEFINITION. Every operand form: the register operand (R67, R85), the addresses and address checks of
`memory_address_translator` (R36, R52 to R54), and the validity checks of `stack_boundary_checker` (R35, R106, R110,
R111). -/

namespace Sys2Proof.Machine

/-- The register a register operand's cell names, none for an invalid index (R20, R67). -/
def regOperand (cell : Word) : Option Reg :=
  if cell.toInt = 0 then some .A
  else if cell.toInt = 1 then some .B
  else if cell.toInt = 2 then some .C
  else if cell.toInt = 3 then some .D
  else none

/-- A handler with a register operand: an invalid one raises ILLEGAL_OPERAND before the handler does anything (R84, R85). -/
def withReg (cell : Word) (s : State) (k : Reg → StepOutcome) : StepOutcome :=
  match regOperand cell with
  | some r => k r
  | none => raise .illegalOperand s

/-- The outputs of `memory_address_translator` (R36), every address an exact integer (R54). -/
structure Translation where
  fetchOk : Bool
  opnd1Ok : Bool
  opnd2Ok : Bool
  dPlusNum : Int
  frameAddr : Int
  pushAddr : Int
  deriving DecidableEq, Repr

/-- `memory_address_translator` with the decoded `num` (R36, R52, R53, R54). -/
def translator (s : State) (num : Word) : Translation :=
  { fetchOk := decide (0 ≤ s.ip.toInt ∧ s.ip.toInt < (s.roof : Int))
    opnd1Ok := decide (s.ip.toInt + 1 < (s.memCells : Int))
    opnd2Ok := decide (s.ip.toInt + 2 < (s.memCells : Int))
    dPlusNum := s.regs.d.toInt + num.toInt
    frameAddr := (s.top : Int) + s.regs.d.toInt + num.toInt
    pushAddr := (s.bottom : Int) - (s.size : Int) }

/-- The request input of `stack_boundary_checker` (R35). -/
inductive StackReq where
  | none | push | pop | load | store
  deriving DecidableEq, Repr

/-- The outputs of `stack_boundary_checker` (R35). -/
structure StackOut where
  stackOk : Bool
  topNext : Nat
  sizeNext : Nat
  deriving DecidableEq, Repr

/-- `frame_ok` of R106, from the translator's exact sums. -/
def frameOk (s : State) (dPlusNum frameAddr : Int) : Bool :=
  s.hasStack && decide (0 < s.size) && decide (0 ≤ dPlusNum) && decide (frameAddr ≤ (s.bottom : Int))

/-- `stack_boundary_checker` (R35): whether a request is valid (R106, R110, R111), and the stack registers after it. -/
def stackCheck (req : StackReq) (dPlusNum frameAddr : Int) (s : State) : StackOut :=
  match req with
  | .none => { stackOk := true, topNext := s.top, sizeNext := s.size }
  | .push =>
    { stackOk := decide (¬ ((s.bottom : Int) - (s.size : Int) < (s.roof : Int)))
      topNext := ((s.bottom : Int) - (s.size : Int)).toNat
      sizeNext := s.size + 1 }
  | .pop =>
    { stackOk := decide (s.size ≠ 0)
      topNext := if 1 < s.size then s.top + 1 else s.top
      sizeNext := s.size - 1 }
  | .load | .store =>
    { stackOk := frameOk s dPlusNum frameAddr, topNext := s.top, sizeNext := s.size }

end Sys2Proof.Machine
end

