-- ==== Sys2Proof/Machine/Arithmetic.lean ====
section
/-! DEFINITION. `add`, `sub`, `mul`, `div`, `inc`, `dec` (41_arithmetic.md R93 to R99). -/

namespace Sys2Proof.Machine

/-- `alu_ops` on two operands, with the register file's tap of C (R33, R34). -/
def aluAt (op : AluOp) (a b : Word) (s : State) : AluOut := aluOps op a b s.regs.c

/-- `A <- A op x[reg]` (R94 to R97). -/
def accumulate (op : AluOp) (r : Reg) (s : State) : StepOutcome :=
  succeed 2 { wr0 := some (.A, (aluAt op s.regs.a (s.regs.get r) s).result) } s

/-- `x[reg] <- x[reg] op 1` (R98, R99): INC and DEC ignore the second operand (R34). -/
def count (op : AluOp) (r : Reg) (s : State) : StepOutcome :=
  succeed 2 { wr0 := some (r, (aluAt op (s.regs.get r) 0 s).result) } s

/-- `add reg` (R94). -/
def execAdd (reg : Word) (s : State) : StepOutcome :=
  withReg reg s fun r => accumulate .add r s

/-- `sub reg` (R95). -/
def execSub (reg : Word) (s : State) : StepOutcome :=
  withReg reg s fun r => accumulate .sub r s

/-- `mul reg` (R96). -/
def execMul (reg : Word) (s : State) : StepOutcome :=
  withReg reg s fun r => accumulate .mul r s

/-- `div reg` (R97): a divisor of 0 raises DIV_BY_ZERO, after the register check (C2). -/
def execDiv (reg : Word) (s : State) : StepOutcome :=
  withReg reg s fun r =>
    if (aluAt .div s.regs.a (s.regs.get r) s).bIsZero then raise .divByZero s
    else accumulate .div r s

/-- `inc reg` (R98). -/
def execInc (reg : Word) (s : State) : StepOutcome :=
  withReg reg s fun r => count .inc r s

/-- `dec reg` (R99). -/
def execDec (reg : Word) (s : State) : StepOutcome :=
  withReg reg s fun r => count .dec r s

end Sys2Proof.Machine
end

