-- ==== Sys2Proof/Machine/ControlFlow.lean ====
section
/-! DEFINITION. `nop`, `halt`, `loop` (42_control_flow.md R100 to R103). -/

namespace Sys2Proof.Machine

/-- `nop` (R100). -/
def execNop (s : State) : StepOutcome := succeed 1 {} s

/-- `halt` (R101): HALTED is a success terminal, and the pointer advances. -/
def execHalt (s : State) : StepOutcome := succeed 1 { status := some .halted } s

/-- `loop index` (R102): `alu_ops` tests C (R34), and the target is not checked here (R147). -/
def execLoop (index : Word) (s : State) : StepOutcome :=
  if (aluOps .add 0 0 s.regs.c).cIsZero then succeed 2 {} s
  else .next (commit { pcNext := some index } s)

end Sys2Proof.Machine
end

