-- ==== Sys2Proof/Machine/DataMovement.lean ====
section
/-! DEFINITION. `movr` and `swap` (43_data_movement.md R104, R105). -/

namespace Sys2Proof.Machine

/-- `movr reg, num` (R104). -/
def execMovr (reg num : Word) (s : State) : StepOutcome :=
  withReg reg s fun r => succeed 3 { wr0 := some (r, num) } s

/-- `swap reg1, reg2` (R105): `reg1` is checked first, and the two write ports carry the exchanged values. -/
def execSwap (reg1 reg2 : Word) (s : State) : StepOutcome :=
  withReg reg1 s fun r1 =>
    withReg reg2 s fun r2 =>
      succeed 3 { wr0 := some (r1, s.regs.get r2), wr1 := some (r2, s.regs.get r1) } s

end Sys2Proof.Machine
end

