-- ==== Sys2Proof/WellFormed.lean ====
section
/-! DEFINITION. Which instructions are well formed: every register operand names a register (R20, R67, R72). An ill-formed
one still decodes and executes (it raises ILLEGAL_OPERAND, R85), so no meaning assumes well-formedness. -/

namespace Sys2Proof

/-- A register operand's cell is valid iff its value lies in [0,3], the whole cell compared (R20, R67). -/
def validRegCell (r : Word) : Bool := decide (0 ≤ r.toInt ∧ r.toInt ≤ 3)

/-- `regfields` of R78: the cells of an instruction that name registers, in operand order. -/
def Instr.regOperands : Instr → List Word
  | .nop | .halt | .loop _ => []
  | .add r | .sub r | .mul r | .div r | .inc r | .dec r => [r]
  | .inp r | .get r | .out r | .put r | .push r | .pop r => [r]
  | .movr r _ | .load r _ | .store r _ => [r]
  | .swap r1 r2 => [r1, r2]

/-- Every register operand is valid (R72: no other operand can be illegal). -/
def Instr.wellFormed (i : Instr) : Bool := i.regOperands.all validRegCell

end Sys2Proof
end

