-- ==== Sys2Proof/Decode.lean ====
section
/-! DEFINITION. From bytes and cells to instructions and back: byte order (R46), the opcode map (R64), formats and widths
(R63, R66), the decoder, the encoder, and the reading of a table word. -/

namespace Sys2Proof

/-- The low byte of a cell, `v[7:0]` of R7. -/
def lowByte (w : Word) : Byte := w.setWidth 8

/-- `zext_32` of R7. -/
def zext32 (b : Byte) : Word := b.setWidth 32

/-- Four bytes, least significant first, as one cell (R46, R136). -/
def cellOfBytes (b0 b1 b2 b3 : Byte) : Word :=
  wrap32 (b0.toNat + 2 ^ 8 * b1.toNat + 2 ^ 16 * b2.toNat + 2 ^ 24 * b3.toNat)

/-- A cell's four bytes, least significant first (R46, R74). -/
def bytesOfCell (w : Word) : List Byte :=
  [lowByte w, lowByte (w >>> 8), lowByte (w >>> 16), lowByte (w >>> 24)]

/-- A byte string as cells; none where its length is no multiple of 4 (R46, R137). -/
def cellsOfBytes : List Byte → Option (List Word)
  | [] => some []
  | b0 :: b1 :: b2 :: b3 :: rest => (cellsOfBytes rest).map (cellOfBytes b0 b1 b2 b3 :: ·)
  | _ => none

/-- The five formats of R63, each with the instruction it makes of its operand cells. -/
inductive Format where
  | N (i : Instr)
  | R (make : Word → Instr)
  | I (make : Word → Instr)
  | RI (make : Word → Word → Instr)
  | RR (make : Word → Word → Instr)

/-- The width of a format in cells (R63, R66). -/
def Format.width : Format → Nat
  | .N _ => 1
  | .R _ | .I _ => 2
  | .RI _ | .RR _ => 3

/-- The instruction of a format with the cells at +1 and +2 (R63); a format leaves the cells it does not have alone. -/
def Format.build (o1 o2 : Word) : Format → Instr
  | .N i => i
  | .R make | .I make => make o1
  | .RI make | .RR make => make o1 o2

/-- The opcode map of R64: the whole cell selects the instruction (R62), and a cell outside [0,18] selects none (R71). -/
def formatOf (opc : Word) : Option Format :=
  if opc = 0 then some (.N .nop)
  else if opc = 1 then some (.N .halt)
  else if opc = 2 then some (.R .add)
  else if opc = 3 then some (.R .sub)
  else if opc = 4 then some (.R .mul)
  else if opc = 5 then some (.R .div)
  else if opc = 6 then some (.R .inc)
  else if opc = 7 then some (.R .dec)
  else if opc = 8 then some (.I .loop)
  else if opc = 9 then some (.RI .movr)
  else if opc = 10 then some (.RI .load)
  else if opc = 11 then some (.RI .store)
  else if opc = 12 then some (.R .inp)
  else if opc = 13 then some (.R .get)
  else if opc = 14 then some (.R .out)
  else if opc = 15 then some (.R .put)
  else if opc = 16 then some (.RR .swap)
  else if opc = 17 then some (.R .push)
  else if opc = 18 then some (.R .pop)
  else none

/-- Why cells or bytes are no instruction. -/
inductive DecodeError where
  /-- There is no opcode cell. -/
  | noOpcode
  /-- The opcode cell lies outside [0,18] (R71). -/
  | illegalOpcode (opc : Word)
  /-- An operand cell is not there (R82). -/
  | missingOperand (opc : Word)
  /-- A byte string that is not made of whole cells (R137). -/
  | partialCell
  deriving DecidableEq, Repr

/-- Decode the instruction at the head of a list of cells, and what follows it (R61 to R70). -/
def decodeCells : List Word → Except DecodeError (Instr × List Word)
  | [] => .error .noOpcode
  | opc :: ops =>
    match formatOf opc with
    | none => .error (.illegalOpcode opc)
    | some f =>
      if ops.length + 1 < f.width then .error (.missingOperand opc)
      else .ok (f.build (ops.getD 0 0) (ops.getD 1 0), ops.drop (f.width - 1))

/-- Decode a byte string, as a program is stored (R46). -/
def decodeBytes (bs : List Byte) : Except DecodeError (Instr × List Word) :=
  match cellsOfBytes bs with
  | none => .error .partialCell
  | some cs => decodeCells cs

/-- The cells of an instruction (R63, R64, R74). -/
def encode : Instr → List Word
  | .nop => [0]
  | .halt => [1]
  | .add r => [2, r]
  | .sub r => [3, r]
  | .mul r => [4, r]
  | .div r => [5, r]
  | .inc r => [6, r]
  | .dec r => [7, r]
  | .loop index => [8, index]
  | .movr r num => [9, r, num]
  | .load r num => [10, r, num]
  | .store r num => [11, r, num]
  | .inp r => [12, r]
  | .get r => [13, r]
  | .out r => [14, r]
  | .put r => [15, r]
  | .swap r1 r2 => [16, r1, r2]
  | .push r => [17, r]
  | .pop r => [18, r]

/-- The bytes of an instruction, each cell little-endian (R46, R74, R76). -/
def encodeBytes (i : Instr) : List Byte := (encode i).flatMap bytesOfCell

/-- An instruction's width in cells (R63, R66). -/
def Instr.width (i : Instr) : Nat := (encode i).length

/-- The bytes that store a table word of `nbits` bits: bit 0 the least significant of the first cell, the bits from
`nbits` on zero, up to the longest instruction's three cells. -/
def tableBytes (nbits w : Nat) : List Byte :=
  (List.range 12).map fun k => BitVec.ofNat 8 ((w % 2 ^ nbits) / 2 ^ (8 * k))

/-- The same word as the three cells that hold it. -/
def tableCells (nbits w : Nat) : List Word := (cellsOfBytes (tableBytes nbits w)).getD []

/-- What the decoder reads from a word numbered as spec/opcode_table.json numbers it. -/
def decodeTableWord (nbits w : Nat) : Option Instr :=
  match decodeBytes (tableBytes nbits w) with
  | .ok (i, _) => some i
  | .error _ => none

end Sys2Proof
end

