-- ==== Sys2Proof/Machine/Io.lean ====
section
/-! DEFINITION. The I/O port and the host's device behind it (10_state.md R39, 45_io.md R113 to R116): the token grammar
`IN_PARSE`, the four requests of R11, and what the accepted output requests put on the output stream. -/

namespace Sys2Proof.Machine

/-! ### The spec's default IN_PARSE (R114, D13) -/

/-- The whitespace bytes of R114: 0x20, and 0x09 to 0x0D. -/
def isSpaceByte (b : Byte) : Bool := decide (b = 0x20 ∨ (0x09 ≤ b ∧ b ≤ 0x0D))

/-- The digit bytes `0` to `9` (R114, R116). -/
def isDigitByte (b : Byte) : Bool := decide (0x30 ≤ b ∧ b ≤ 0x39)

/-- The number a run of digit bytes writes, `acc` standing before it. -/
def digitsValue (acc : Nat) : List Byte → Nat
  | [] => acc
  | b :: bs => digitsValue (10 * acc + (b.toNat - 0x30)) bs

/-- The value of `[0-9]+`, none for anything else. -/
def unsignedValue (t : List Byte) : Option Nat :=
  if t ≠ [] ∧ t.all isDigitByte then some (digitsValue 0 t) else none

/-- The value of `[+-]?[0-9]+`, none for anything else (R114). -/
def tokenValue : List Byte → Option Int
  | [] => none
  | b :: t =>
    if b = 0x2B then (unsignedValue t).map (fun n => (n : Int))
    else if b = 0x2D then (unsignedValue t).map (fun n => -(n : Int))
    else (unsignedValue (b :: t)).map (fun n => (n : Int))

/-- What a token that was read stands for: its value where it lies in the range of a cell, else malformed (R114). -/
def tokenOutcome (t : List Byte) : TokenOutcome :=
  match tokenValue t with
  | some v => if -(2 ^ 31) ≤ v ∧ v ≤ 2 ^ 31 - 1 then .value (wrap32 v) else .malformed
  | none => .malformed

/-- The default `IN_PARSE` of R114: the outcome and the input that remains. The whitespace that ends a token stays. -/
def inParseDefault (input : List Byte) : TokenOutcome × List Byte :=
  let rest := input.dropWhile isSpaceByte
  if rest = [] then (.endOfInput, [])
  else (tokenOutcome (rest.takeWhile (fun b => !isSpaceByte b)), rest.dropWhile (fun b => !isSpaceByte b))

/-- `IN_PARSE` of the machine's device (R6, R114): either way a prefix of the input is consumed. -/
def inParse (p : Parser) (input : List Byte) : TokenOutcome × List Byte :=
  match p with
  | .spec => inParseDefault input
  | .other n => ((Config.inParse n input).1, input.drop (Config.inParse n input).2)

/-! ### The four requests of R11; none where the device does not answer (R113) -/

/-- `InToken()` (R114). -/
def Device.inToken (d : Device) : Option (TokenOutcome × Device) :=
  if d.inputAnswers then
    some ((inParse d.parser d.input).1, { d with input := (inParse d.parser d.input).2 })
  else none

/-- `InByte()` (R115). -/
def Device.inByte (d : Device) : Option (ByteOutcome × Device) :=
  if d.inputAnswers then
    match d.input with
    | [] => some (.endOfInput, d)
    | b :: rest => some (.byte b, { d with input := rest })
  else none

/-- `OutDec(w)` and `OutByte(b)` (R116): the device accepts every request it acknowledges. -/
def Device.accept (d : Device) (item : OutItem) : Option Device :=
  if d.outputAnswers then some { d with output := d.output ++ [item] } else none

/-- An I/O instruction makes one request, after its checks, and the step goes on with the answer; with no answer the step
never completes (R113). -/
def transact {α : Type} (answer : Option α) (k : α → StepOutcome) : StepOutcome :=
  match answer with
  | some r => k r
  | none => .fault .ioBlocked

/-! ### What the output stream holds (R116) -/

/-- The decimal digits of a number, most significant first; ten of fuel are enough for a cell. -/
def decimalDigits : Nat → Nat → List Byte
  | 0, _ => []
  | fuel + 1, n =>
    if n < 10 then [BitVec.ofNat 8 (0x30 + n)]
    else decimalDigits fuel (n / 10) ++ [BitVec.ofNat 8 (0x30 + n % 10)]

/-- The bytes one accepted request appends to the output stream: `OUT_DEC` renders `w mod 2^32` without sign, leading
zeros, separator or newline (R116, C7). -/
def OutItem.bytes : OutItem → List Byte
  | .dec w => decimalDigits 10 w.toNat
  | .byte b => [b]

/-- The output stream's bytes (R116). -/
def Device.outputBytes (d : Device) : List Byte := d.output.flatMap OutItem.bytes

end Sys2Proof.Machine
end

