-- ==== Sys2Proof/Machine/InputOutput.lean ====
section
/-! DEFINITION. `in`, `get`, `out`, `put` (45_io.md R117 to R121). Each makes one request on the port, after every other check
of its step (R84, R113). -/

namespace Sys2Proof.Machine

/-- The writes of `in` and `get` at end of input (R118): `wr0` carries `C <- 0` and `wr1` carries `reg <- -1`, so on the
operand C the second wins (R33). -/
def endOfInputWrites (r : Reg) (d : Device) : Commit :=
  { wr0 := some (.C, 0), wr1 := some (r, -1), device := some d }

/-- `in reg` (R117). A malformed token raises IO_ERROR, and the input the device consumed stays consumed (R86, R114). -/
def execIn (reg : Word) (s : State) : StepOutcome :=
  withReg reg s fun r =>
    transact s.dev.inToken fun answer =>
      match answer.1 with
      | .value v => succeed 2 { wr0 := some (r, v), device := some answer.2 } s
      | .endOfInput => succeed 2 (endOfInputWrites r answer.2) s
      | .malformed => raise .ioError { s with dev := answer.2 }

/-- `get reg` (R119): the byte is zero-extended. -/
def execGet (reg : Word) (s : State) : StepOutcome :=
  withReg reg s fun r =>
    transact s.dev.inByte fun answer =>
      match answer.1 with
      | .byte b => succeed 2 { wr0 := some (r, zext32 b), device := some answer.2 } s
      | .endOfInput => succeed 2 (endOfInputWrites r answer.2) s

/-- `out reg` (R120): the raw cell is passed on the port (R116). -/
def execOut (reg : Word) (s : State) : StepOutcome :=
  withReg reg s fun r =>
    transact (s.dev.accept (.dec (s.regs.get r))) fun d => succeed 2 { device := some d } s

/-- `put reg` (R121): a value outside [0,255] raises ILLEGAL_OPERAND, and nothing is output. -/
def execPut (reg : Word) (s : State) : StepOutcome :=
  withReg reg s fun r =>
    if (aluOps .add 0 (s.regs.get r) s.regs.c).byteOk then
      transact (s.dev.accept (.byte (lowByte (s.regs.get r)))) fun d => succeed 2 { device := some d } s
    else raise .illegalOperand s

end Sys2Proof.Machine
end

