-- ==== Sys2Proof/Machine/Stack.lean ====
section
/-! DEFINITION. `load`, `store`, `push`, `pop` (44_stack.md R106 to R112). -/

namespace Sys2Proof.Machine

/-- A request to `stack_boundary_checker` (R35), with the translator's sums for `num` (R36): an invalid one raises
INVALID_STACK_OPERATION (R106, R110, R111). -/
def withStack (req : StackReq) (num : Word) (s : State) (k : StackOut → StepOutcome) : StepOutcome :=
  let out := stackCheck req (translator s num).dPlusNum (translator s num).frameAddr s
  if out.stackOk then k out else raise .invalidStackOperation s

/-- `load reg, num` (R108): the address uses D as it was before the step. -/
def execLoad (reg num : Word) (s : State) : StepOutcome :=
  withReg reg s fun r =>
    withStack .load num s fun _ =>
      withCell s (translator s num).frameAddr fun _ v => succeed 3 { wr0 := some (r, v) } s

/-- `store reg, num` (R109). -/
def execStore (reg num : Word) (s : State) : StepOutcome :=
  withReg reg s fun r =>
    withStack .store num s fun _ =>
      withCell s (translator s num).frameAddr fun a _ =>
        succeed 3 { memWrite := some (a, s.regs.get r) } s

/-- `push reg` (R110). -/
def execPush (reg : Word) (s : State) : StepOutcome :=
  withReg reg s fun r =>
    withStack .push 0 s fun out =>
      withCell s (translator s 0).pushAddr fun a _ =>
        succeed 2
          { memWrite := some (a, s.regs.get r), stackNext := some (out.topNext, out.sizeNext) } s

/-- `pop reg` (R111): the vacated cell is zeroed. -/
def execPop (reg : Word) (s : State) : StepOutcome :=
  withReg reg s fun r =>
    withStack .pop 0 s fun out =>
      withCell s s.top fun a v =>
        succeed 2
          { wr0 := some (r, v), memWrite := some (a, 0),
            stackNext := some (out.topNext, out.sizeNext) } s

end Sys2Proof.Machine
end

