-- ==== Sys2Proof/Machine/Dispatch.lean ====
section
/-! DEFINITION. `instruction_dispatcher`'s choice of the handler: one arm per opcode, no default arm (40_dispatch.md R83). -/

namespace Sys2Proof.Machine

def exec (i : Instr) (s : State) : Host.Outcome State Fault Refusal :=
  match i with
  | .nop => Sys2Proof.Machine.execNop s
  | .halt => Sys2Proof.Machine.execHalt s
  | .add reg => Sys2Proof.Machine.execAdd reg s
  | .sub reg => Sys2Proof.Machine.execSub reg s
  | .mul reg => Sys2Proof.Machine.execMul reg s
  | .div reg => Sys2Proof.Machine.execDiv reg s
  | .inc reg => Sys2Proof.Machine.execInc reg s
  | .dec reg => Sys2Proof.Machine.execDec reg s
  | .loop index => Sys2Proof.Machine.execLoop index s
  | .movr reg num => Sys2Proof.Machine.execMovr reg num s
  | .load reg num => Sys2Proof.Machine.execLoad reg num s
  | .store reg num => Sys2Proof.Machine.execStore reg num s
  | .inp reg => Sys2Proof.Machine.execIn reg s
  | .get reg => Sys2Proof.Machine.execGet reg s
  | .out reg => Sys2Proof.Machine.execOut reg s
  | .put reg => Sys2Proof.Machine.execPut reg s
  | .swap reg1 reg2 => Sys2Proof.Machine.execSwap reg1 reg2 s
  | .push reg => Sys2Proof.Machine.execPush reg s
  | .pop reg => Sys2Proof.Machine.execPop reg s

end Sys2Proof.Machine
end

