-- ==== Sys2Proof/Machine/Fetch.lean ====
section
/-! DEFINITION. The common part of a step before its handler: the stopped machine, and `fetch_decode_unit` with its checks in
the order of 40_dispatch.md R78 and R84. -/

namespace Sys2Proof.Machine

/-- What a step does before its handler. -/
inductive Fetched where
  /-- `status` is not OK: the step does nothing (R79). -/
  | stopped
  /-- The fetch raises an error (R80, R81, R82). -/
  | raised (error : Status)
  /-- ROOF lies beyond the image and `ip` with it: no such state is reached. Log 9. -/
  | noCell
  /-- The handler of this instruction executes (R83). -/
  | execute (i : Instr)
  deriving DecidableEq, Repr

/-- An operand cell, 0 where the width does not cover it (R70, R78). -/
def operandCell (s : State) (width k : Nat) : Word :=
  if k < width then s.mem.read (s.ip.toInt + k).toNat else 0

/-- Whether the instruction's last operand cell lies in the image (R37 `operand_fault`, R82). -/
def operandsOk (s : State) (width : Nat) : Bool :=
  match width with
  | 2 => (translator s 0).opnd1Ok
  | 3 => (translator s 0).opnd2Ok
  | _ => true

/-- The lines of R78 before the register operands: stopped, fetch bound, opcode, operand cells. -/
def fetchDecode (s : State) : Fetched :=
  if s.status ≠ .ok then .stopped
  else if !(translator s 0).fetchOk then .raised .invalidAddress
  else if !s.hasCell s.ip.toInt then .noCell
  else
    match formatOf (s.mem.read s.ip.toInt.toNat) with
    | none => .raised .illegalInstruction
    | some f =>
      if !operandsOk s f.width then .raised .invalidAddress
      else .execute (f.build (operandCell s f.width 1) (operandCell s f.width 2))

/-- A step of a stopped machine changes nothing and reads no cell and no input (R79). -/
def stoppedStep (s : State) : StepOutcome := .next s

/-- The image with cells stored from an address on, those that would lie outside it left away. -/
def State.storeCells (s : State) (a : Int) : List Word → State
  | [] => s
  | c :: cs =>
    (if s.hasCell a then { s with mem := s.mem.write a.toNat c } else s).storeCells (a + 1) cs

end Sys2Proof.Machine
end

