-- ==== Sys2Proof/Machine/Step.lean ====
section
/-! DEFINITION. One step (40_dispatch.md R78), and where a step fetches its instruction. -/

namespace Sys2Proof.Machine

/-- `step()` of R78: fetch and decode with their checks, then the handler. The Boolean it returns is `stepReturns` of the
state it leaves (R87). -/
def step (s : State) : Host.Outcome State Fault Refusal :=
  match fetchDecode s with
  | .stopped => stoppedStep s
  | .raised error => raise error s
  | .noCell => .fault .noSuchCell
  | .execute i => exec i s

/-- The state with a table word's instruction stored at `ip`, where the next step fetches (R22); cells that would lie
outside the image are not stored. Stands for the host's load of a program (log 3). -/
def State.withFetchWord (s : State) (nbits w : Nat) : State :=
  s.storeCells s.ip.toInt (tableCells nbits w)

end Sys2Proof.Machine
end

