-- ==== Sys2Proof/Machine/HostCalls.lean ====
section
/-! DEFINITION. Everything the host can do to a machine (70_reset_and_hazards.md R136 to R145), and the run controller
(40_dispatch.md R89 to R91). A call the spec refuses is a refusal with a name (log 13, log 14). -/

namespace Sys2Proof.Machine

/-! ### Loading and creation -/

/-- The image `create_memory` returns (R136), with what R139 compares `create`'s arguments against. -/
structure Image where
  cells : Memory
  memCells : Nat
  stackCap : Nat
  deriving DecidableEq, Repr

/-- `BOTTOM` of an image (R136). -/
def Image.bottom (img : Image) : Int := (img.memCells : Int) - 1

/-- `create_memory(bytes, STACK_CAP)` (R136) with the parameter `MEM_CELLS`; `hostHasMemory` says whether the host's
allocation succeeds (R140). -/
def createMemory (hostHasMemory : Bool) (bytes : List Byte) (stackCap : Int) (memCells : Nat) :
    Host.Outcome Image Fault Refusal :=
  match cellsOfBytes bytes with
  | none => .refused .loadError
  | some cells =>
    if ¬ (0 ≤ stackCap ∧ Config.validMemCells memCells cells.length stackCap.toNat) then
      .refused .inadmissibleImage
    else if hostHasMemory then
      .next { cells := Memory.ofCells 0 cells, memCells := memCells, stackCap := stackCap.toNat }
    else .refused .allocationFailed

/-- The machine `create` builds (R138). `dev` is the host's device, with the grammar `IN_PARSE` (R6, log 4). -/
def State.created (img : Image) (dev : Device) : State :=
  { regs := { a := 0, b := 0, c := 0, d := 0 }
    ip := 0
    status := .ok
    top := img.memCells - 1
    size := 0
    roof := img.memCells - img.stackCap
    bottom := img.memCells - 1
    hasStack := decide (0 < img.stackCap)
    mem := img.cells
    dev := dev }

/-- `create(M, bottom, STACK_CAP)`, admitted only with the image's own values (R138 to R140). -/
def create (hostHasMemory : Bool) (img : Image) (bottom stackCap : Int) (dev : Device) :
    Host.Outcome State Fault Refusal :=
  if ¬ (bottom = img.bottom ∧ stackCap = (img.stackCap : Int)) then .refused .createMismatch
  else if hostHasMemory then .next (State.created img dev)
  else .refused .allocationFailed

/-! ### Access to the registers -/

/-- `get_register(reg)` (R40). -/
def getRegister (reg : Word) (s : State) : Host.Outcome Word Fault Refusal :=
  match regOperand reg with
  | some r => .next (s.regs.get r)
  | none => .refused .invalidRegisterIndex

/-- `set_register(reg, value)`, accepted in every status (R40, D26). -/
def setRegister (reg value : Word) (s : State) : StepOutcome :=
  match regOperand reg with
  | some r => .next { s with regs := s.regs.set r value }
  | none => .refused .invalidRegisterIndex

/-- `get_stack_size()` (R41). -/
def getStackSize (s : State) : Word := BitVec.ofNat 32 s.size

/-- The status's code (R21, D3). -/
def Status.code : Status → Word
  | .ok => 0
  | .halted => 1
  | .illegalInstruction => 2
  | .illegalOperand => 3
  | .invalidAddress => 4
  | .invalidStackOperation => 5
  | .divByZero => 6
  | .ioError => 7

/-! ### The run controller -/

/-- What `run` returns for a failing step of index `k` (R89): `+k` for HALTED, `-k` for an error. -/
def failureCount (k : Nat) (status : Status) : Word :=
  if status = .halted then wrap32 k else wrap32 (-(k : Int))

/-- The steps of `run` that are left, after `done` successful ones (R89). -/
def runSteps : Nat → Nat → State → Host.Outcome (State × Word) Fault Refusal
  | 0, done, s => .next (s, wrap32 done)
  | left + 1, done, s =>
    match step s with
    | .next t => if stepReturns t then runSteps left (done + 1) t else .next (t, failureCount (done + 1) t.status)
    | .fault r => .fault r
    | .refused r => .refused r

/-- `run(n)` (R89): the state it leaves and the signed count it returns. A run with a step that never completes does not
complete either (R92, log 5). -/
def run (n : Word) (s : State) : Host.Outcome (State × Word) Fault Refusal :=
  if n.toInt ≤ 0 then .next (s, 0) else runSteps n.toInt.toNat 0 s

/-! ### The table of R145, for a machine that exists -/

/-- A machine the host holds: one to call, or one it destroyed (R143). -/
inductive HostMachine where
  | live (s : State)
  | destroyed
  deriving DecidableEq, Repr

/-- The host's calls on a machine (R145). -/
inductive HostCall where
  | getRegister (reg : Word)
  | setRegister (reg value : Word)
  | getStatus
  | getStackSize
  | step
  | run (n : Word)
  | reset
  | destroy
  deriving DecidableEq, Repr

/-- What a call returns (R145). -/
inductive HostReply where
  | nothing
  | word (w : Word)
  | status (st : Status)
  | flag (b : Bool)
  deriving DecidableEq, Repr

/-- A call on a state (R145): the machine after it and what it returns. -/
def State.answer (s : State) : HostCall → Host.Outcome (HostMachine × HostReply) Fault Refusal
  | .getRegister reg =>
    match getRegister reg s with
    | .next w => .next (.live s, .word w)
    | .fault r => .fault r
    | .refused r => .refused r
  | .setRegister reg value =>
    match setRegister reg value s with
    | .next t => .next (.live t, .nothing)
    | .fault r => .fault r
    | .refused r => .refused r
  | .getStatus => .next (.live s, .status s.status)
  | .getStackSize => .next (.live s, .word (getStackSize s))
  | .step =>
    match Sys2Proof.Machine.step s with
    | .next t => .next (.live t, .flag (stepReturns t))
    | .fault r => .fault r
    | .refused r => .refused r
  | .run n =>
    match Sys2Proof.Machine.run n s with
    | .next (t, count) => .next (.live t, .word count)
    | .fault r => .fault r
    | .refused r => .refused r
  | .reset => .next (.live s.hostReset, .nothing)
  | .destroy => .next (.destroyed, .nothing)

/-- A call on a machine: on a destroyed one every call is refused (R143). -/
def hostCall (call : HostCall) : HostMachine → Host.Outcome (HostMachine × HostReply) Fault Refusal
  | .live s => s.answer call
  | .destroyed => .refused .machineDestroyed

end Sys2Proof.Machine
end

