-- ==== Sys2Proof/Safety.lean ====
section
/-! DEFINITION. What statements are made of, in the spec's own terms: register cells (R20, R67), the instruction at `ip` (R61),
the checks an instruction makes of its own (R84), the invariant of every machine that creation, the host and steps produce
(R6, R24 to R27, R42, R112), and the relation of a state to a later one (R45, R50). -/

namespace Sys2Proof

/-- A register's index, as the cell of a register operand holds it (R19, R67). -/
def Reg.index : Reg → Word
  | .A => 0
  | .B => 1
  | .C => 2
  | .D => 3

/-- A register operand's cell that names no register (R20). -/
abbrev InvalidRegCell (cell : Word) : Prop := ¬ (0 ≤ cell.toInt ∧ cell.toInt ≤ 3)

/-- The registers an instruction may write (R19, and the rules of the instructions). -/
def Instr.Writes : Instr → Reg → Prop
  | .add _, r | .sub _, r | .mul _, r | .div _, r => r = .A
  | .inc reg, r | .dec reg, r | .movr reg _, r | .load reg _, r | .pop reg, r => reg = r.index
  | .inp reg, r | .get reg, r => reg = r.index ∨ r = .C
  | .swap reg1 reg2, r => reg1 = r.index ∨ reg2 = r.index
  | .nop, _ | .halt, _ | .loop _, _ | .store _ _, _ | .out _, _ | .put _, _ | .push _, _ => False

/-- The four I/O instructions (R113). -/
def Instr.isIo : Instr → Bool
  | .inp _ | .get _ | .out _ | .put _ => true
  | _ => false

/-- The number a list of digit bytes writes in decimal. -/
def decimalValue (ds : List Byte) : Nat := ds.foldl (fun n b => 10 * n + (b.toNat - 0x30)) 0

end Sys2Proof

namespace Sys2Proof.Machine

/-! ### The instruction at `ip`, and the checks of a step -/

/-- The fetch check of R52 and R80. -/
abbrev State.InRegion (s : State) : Prop := 0 ≤ s.ip.toInt ∧ s.ip.toInt < (s.roof : Int)

/-- The cell `ip + k`, for an `ip` that is not negative. -/
def State.cellAt (s : State) (k : Nat) : Word := s.mem.read (s.ip.toInt.toNat + k)

/-- The cells of an instruction stand in the image at `ip` (R61, R63). -/
def State.Holds (s : State) (i : Instr) : Prop :=
  ∀ k, k < i.width → s.ip.toInt.toNat + k < s.memCells ∧ s.cellAt k = (encode i).getD k 0

/-- The cells of the image from an address to its end, as a fetch there meets them (R53, R61). -/
def State.cellsFrom (s : State) (a : Nat) : List Word :=
  (List.range (s.memCells - a)).map fun k => s.mem.read (a + k)

/-- `frame_ok(num)` of R106, the sums exact. -/
abbrev State.FrameValid (s : State) (num : Word) : Prop :=
  s.hasStack = true ∧ 0 < s.size ∧ 0 ≤ s.regs.d.toInt + num.toInt ∧
    (s.top : Int) + s.regs.d.toInt + num.toInt ≤ (s.bottom : Int)

/-- An instruction with valid register operands fails its own check with this status (R84, item 6). -/
inductive State.OwnError (s : State) : Instr → Status → Prop where
  | div (r : Reg) (zero : s.regs.get r = 0) : s.OwnError (.div r.index) .divByZero
  | load (r : Reg) (num : Word) (bad : ¬ s.FrameValid num) :
      s.OwnError (.load r.index num) .invalidStackOperation
  | store (r : Reg) (num : Word) (bad : ¬ s.FrameValid num) :
      s.OwnError (.store r.index num) .invalidStackOperation
  | push (r : Reg) (full : (s.bottom : Int) - s.size < s.roof) :
      s.OwnError (.push r.index) .invalidStackOperation
  | pop (r : Reg) (empty : s.size = 0) : s.OwnError (.pop r.index) .invalidStackOperation
  | put (r : Reg) (bad : ¬ (0 ≤ (s.regs.get r).toInt ∧ (s.regs.get r).toInt ≤ 255)) :
      s.OwnError (.put r.index) .illegalOperand

/-- The one cell an instruction may write, computed from the state before it as its rule computes it (R49). -/
def State.storesTo (s : State) (i : Instr) : Option Nat :=
  match i with
  | .store _ num => some ((s.top : Int) + s.regs.d.toInt + num.toInt).toNat
  | .push _ => some ((s.bottom : Int) - s.size).toNat
  | .pop _ => some s.top
  | _ => none

/-! ### The invariant -/

/-- The sizes are those of a machine `create` admits (R6, R24, R25, R44). -/
structure State.SizesOk (s : State) : Prop where
  blocks : s.memCells % Config.blockCells = 0
  bound : s.memCells ≤ Config.maxMemCells
  roof_le : s.roof ≤ s.memCells
  hasStack_iff : s.hasStack = true ↔ 0 < s.stackCap

/-- The stack registers satisfy R26: `top = BOTTOM - max(size - 1, 0)` and `size ≤ STACK_CAP`. (Natural subtraction stops at
0, which is R26's `max`.) -/
structure State.StackOk (s : State) : Prop where
  size_le : s.size ≤ s.stackCap
  top_eq : s.top = s.bottom - (s.size - 1)

/-- A cell of the stack region outside the live window (R16, R27). -/
def State.vacant (s : State) (a : Nat) : Prop :=
  s.roof ≤ a ∧ a ≤ s.bottom ∧ ¬ (1 ≤ s.size ∧ s.top ≤ a)

/-- The image is in canonical form, lists no cell outside itself, and the stack region outside the live window is zero
(R27, R43). -/
structure State.ImageOk (s : State) : Prop where
  canonical : s.mem.wf
  inside : ∀ e ∈ s.mem, e.1 < s.memCells
  vacant_zero : ∀ a, s.vacant a → s.mem.read a = 0

/-- The invariant of every machine that creation, the host and steps produce. -/
structure State.Inv (s : State) : Prop where
  sizes : s.SizesOk
  stack : s.StackOk
  image : s.ImageOk

/-- `t` is the same machine as `s`: the sizes, the grammar and every cell of the instruction region are as they were (R24,
R25, R45, R50). -/
structure State.SameMachine (s t : State) : Prop where
  roof : t.roof = s.roof
  bottom : t.bottom = s.bottom
  hasStack : t.hasStack = s.hasStack
  parser : t.dev.parser = s.dev.parser
  instructions : ∀ a, a < s.roof → t.mem.read a = s.mem.read a

/-- What the host can do between two observations of a machine that stays in being (R145). -/
inductive HostMove where
  | setRegister (reg value : Word)
  | step
  | reset

/-- One move, where it has a next state. -/
def State.move (s : State) : HostMove → StepOutcome
  | .setRegister reg value => setRegister reg value s
  | .step => step s
  | .reset => .next s.hostReset

/-- A state reached from another by moves of the host. -/
inductive Reaches : State → State → Prop where
  | start (s : State) : Reaches s s
  | move {s t u : State} (m : HostMove) : Reaches s t → t.move m = .next u → Reaches s u

end Sys2Proof.Machine
end

