-- ==== Sys2Proof/Certificates/Slice0/Obligations.lean ====
section
/-! DEFINITION. The statements for the provers. `R<n>` is a rule of spec/. A register operand is written `r.index` where it names
a register, and is any cell that is `InvalidRegCell` where it does not, so no form is shut out. Where a state is written
`{ s with … }`, every field it does not name, every cell of the image and the host's device among them, is as in `s`. -/

open Sys2Proof Sys2Proof.Machine

/-! ### Numbers, registers, codes -/

/-- 00_scope.md R7: `wrap32(v)` is the unique `Word32` congruent to `v` modulo 2^32. -/
def Obligations.Wrap32IsTheCongruentWord : Prop :=
  ∀ (v : Int) (w : Word), wrap32 v = w ↔ (2 ^ 32 : Int) ∣ w.toInt - v

/-- 10_state.md R20 and 40_dispatch.md R85: a register operand is valid iff its cell lies in [0,3], the four valid cells name
A, B, C, D, and EVERY instruction with an invalid one raises ILLEGAL_OPERAND and changes nothing else; `loop`, `nop` and
`halt` have no register operand. -/
def Obligations.InvalidRegisterOperandRaises : Prop :=
  (∀ (i : Instr) (s : State) (cell : Word), cell ∈ i.regOperands → InvalidRegCell cell →
    exec i s = .next { s with status := .illegalOperand }) ∧
  (∀ cell : Word, InvalidRegCell cell ∨ ∃ r : Reg, cell = r.index) ∧
  (∀ r : Reg, ¬ InvalidRegCell r.index) ∧
  (∀ r q : Reg, r.index = q.index → r = q) ∧
  (∀ index : Word, Instr.regOperands .nop = [] ∧ Instr.regOperands .halt = [] ∧ Instr.regOperands (.loop index) = [])

/-- 10_state.md R21: the eight statuses have the codes 0 to 7; a status that is not OK is kept by every move of the host but
reset, and reset makes it OK. -/
def Obligations.StatusIsStickyUntilReset : Prop :=
  ([Status.ok, .halted, .illegalInstruction, .illegalOperand, .invalidAddress, .invalidStackOperation, .divByZero,
      .ioError].map Status.code = [0, 1, 2, 3, 4, 5, 6, 7]) ∧
  (∀ (s t : State) (m : HostMove), s.status ≠ .ok → m ≠ .reset → s.move m = .next t → t.status = s.status) ∧
  (∀ s : State, ∃ t, s.move .reset = .next t ∧ t.status = .ok)

/-! ### Encoding -/

/-- Decode and encode agree, on bytes: whatever whole cells follow, every instruction (an ill-formed one too) is decoded from
its little-endian bytes (R46, R63, R64), and its opcode alone gives its width, as R66 says. -/
def Obligations.DecodeOfEncodedBytes : Prop :=
  ∀ (i : Instr) (rest : List Word),
    decodeBytes (encodeBytes i ++ rest.flatMap bytesOfCell) = .ok (i, rest) ∧
    (encodeBytes i).length = 4 * i.width ∧
    ∃ opc, (encode i).head? = some opc ∧
      i.width = if opc = 0 ∨ opc = 1 then 1 else if opc = 9 ∨ opc = 10 ∨ opc = 11 ∨ opc = 16 then 3 else 2

/-- The other direction: bytes that decode to an instruction ARE that instruction's bytes, then the cells left over. So no bit
of an encoding is ignored. -/
def Obligations.DecodedBytesAreTheEncoding : Prop :=
  ∀ (bs : List Byte) (i : Instr) (rest : List Word), decodeBytes bs = .ok (i, rest) →
    bs = encodeBytes i ++ rest.flatMap bytesOfCell

/-- 30_encoding.md R71: exactly the opcode cells outside [0,18] are illegal, whatever follows them, and fetching one raises
ILLEGAL_INSTRUCTION. -/
def Obligations.IllegalOpcodesAreThoseOutsideTheMap : Prop :=
  (∀ (opc : Word) (rest : List Word),
    decodeCells (opc :: rest) = .error (.illegalOpcode opc) ↔ ¬ (0 ≤ opc.toInt ∧ opc.toInt ≤ 18)) ∧
  (∀ s : State, s.status = .ok → s.InRegion → s.ip.toInt < s.memCells →
    ¬ (0 ≤ (s.cellAt 0).toInt ∧ (s.cellAt 0).toInt ≤ 18) →
    step s = .next { s with status := .illegalInstruction })

/-- 30_encoding.md R76, the examples: bytes written out from the spec decode to the instructions they stand for. -/
def Obligations.WrittenOutWordsDecode : Prop :=
  decodeBytes [0x09, 0, 0, 0, 0, 0, 0, 0, 0x05, 0, 0, 0] = .ok (.movr 0 5, []) ∧
  decodeBytes [0x01, 0, 0, 0] = .ok (.halt, []) ∧
  decodeBytes [0x08, 0, 0, 0, 0xFF, 0xFF, 0xFF, 0xFF] = .ok (.loop (-1), []) ∧
  decodeCells [16, 1, 3] = .ok (.swap 1 3, [])

/-! ### Arithmetic -/

/-- 41_arithmetic.md R94. -/
def Obligations.AddStoresTheWrappedSum : Prop :=
  (∀ (s : State) (r : Reg), ∃ t,
    exec (.add r.index) s = .next t ∧
    t = { s with
      regs := s.regs.set .A (wrap32 (s.regs.a.toInt + (s.regs.get r).toInt))
      ip := wrap32 (s.ip.toInt + 2) } ∧
    (s.status = .ok → stepReturns t = true)) ∧
  (∀ (s : State) (cell : Word), InvalidRegCell cell →
    exec (.add cell) s = .next { s with status := .illegalOperand }) ∧
  (∀ cell : Word, encode (.add cell) = [2, cell])

/-- 41_arithmetic.md R95. -/
def Obligations.SubStoresTheWrappedDifference : Prop :=
  (∀ (s : State) (r : Reg), ∃ t,
    exec (.sub r.index) s = .next t ∧
    t = { s with
      regs := s.regs.set .A (wrap32 (s.regs.a.toInt - (s.regs.get r).toInt))
      ip := wrap32 (s.ip.toInt + 2) } ∧
    (s.status = .ok → stepReturns t = true)) ∧
  (∀ (s : State) (cell : Word), InvalidRegCell cell →
    exec (.sub cell) s = .next { s with status := .illegalOperand }) ∧
  (∀ cell : Word, encode (.sub cell) = [3, cell])

/-- 41_arithmetic.md R96. -/
def Obligations.MulStoresTheWrappedProduct : Prop :=
  (∀ (s : State) (r : Reg), ∃ t,
    exec (.mul r.index) s = .next t ∧
    t = { s with
      regs := s.regs.set .A (wrap32 (s.regs.a.toInt * (s.regs.get r).toInt))
      ip := wrap32 (s.ip.toInt + 2) } ∧
    (s.status = .ok → stepReturns t = true)) ∧
  (∀ (s : State) (cell : Word), InvalidRegCell cell →
    exec (.mul cell) s = .next { s with status := .illegalOperand }) ∧
  (∀ cell : Word, encode (.mul cell) = [4, cell])

/-- 41_arithmetic.md R97, with `tdiv` spelled out as R93 spells it: sign(a)·sign(b)·floor(|a| / |b|). -/
def Obligations.DivTruncatesOrRaisesDivByZero : Prop :=
  (∀ (s : State) (r : Reg), s.regs.get r ≠ 0 → ∃ t,
    exec (.div r.index) s = .next t ∧
    t = { s with
      regs := s.regs.set .A (wrap32 (s.regs.a.toInt.sign * (s.regs.get r).toInt.sign *
        ((s.regs.a.toInt.natAbs / (s.regs.get r).toInt.natAbs : Nat) : Int)))
      ip := wrap32 (s.ip.toInt + 2) } ∧
    (s.status = .ok → stepReturns t = true)) ∧
  (∀ (s : State) (r : Reg), s.regs.get r = 0 →
    exec (.div r.index) s = .next { s with status := .divByZero }) ∧
  (∀ (s : State) (cell : Word), InvalidRegCell cell →
    exec (.div cell) s = .next { s with status := .illegalOperand }) ∧
  (∀ cell : Word, encode (.div cell) = [5, cell])

/-- 41_arithmetic.md R98. -/
def Obligations.IncAddsOneToItsRegister : Prop :=
  (∀ (s : State) (r : Reg), ∃ t,
    exec (.inc r.index) s = .next t ∧
    t = { s with
      regs := s.regs.set r (wrap32 ((s.regs.get r).toInt + 1))
      ip := wrap32 (s.ip.toInt + 2) } ∧
    (s.status = .ok → stepReturns t = true)) ∧
  (∀ (s : State) (cell : Word), InvalidRegCell cell →
    exec (.inc cell) s = .next { s with status := .illegalOperand }) ∧
  (∀ cell : Word, encode (.inc cell) = [6, cell])

/-- 41_arithmetic.md R99. -/
def Obligations.DecSubtractsOneFromItsRegister : Prop :=
  (∀ (s : State) (r : Reg), ∃ t,
    exec (.dec r.index) s = .next t ∧
    t = { s with
      regs := s.regs.set r (wrap32 ((s.regs.get r).toInt - 1))
      ip := wrap32 (s.ip.toInt + 2) } ∧
    (s.status = .ok → stepReturns t = true)) ∧
  (∀ (s : State) (cell : Word), InvalidRegCell cell →
    exec (.dec cell) s = .next { s with status := .illegalOperand }) ∧
  (∀ cell : Word, encode (.dec cell) = [7, cell])

/-! ### Control flow -/

/-- 42_control_flow.md R100. -/
def Obligations.NopOnlyAdvances : Prop :=
  (∀ s : State, ∃ t,
    exec .nop s = .next t ∧ t = { s with ip := wrap32 (s.ip.toInt + 1) } ∧
    (s.status = .ok → stepReturns t = true)) ∧
  encode .nop = [0]

/-- 42_control_flow.md R101. -/
def Obligations.HaltStopsTheMachine : Prop :=
  (∀ s : State, ∃ t,
    exec .halt s = .next t ∧ t = { s with status := .halted, ip := wrap32 (s.ip.toInt + 1) } ∧
    stepReturns t = false ∧ step t = .next t) ∧
  encode .halt = [1]

/-- 42_control_flow.md R102: taken where C ≠ 0, whatever the target; a target outside [0, ROOF) is caught by the next step. -/
def Obligations.LoopBranchesWhileCIsNotZero : Prop :=
  (∀ (s : State) (index : Word), s.regs.c.toInt ≠ 0 → ∃ t,
    exec (.loop index) s = .next t ∧ t = { s with ip := index } ∧ (s.status = .ok → stepReturns t = true)) ∧
  (∀ (s : State) (index : Word), s.regs.c.toInt = 0 → ∃ t,
    exec (.loop index) s = .next t ∧ t = { s with ip := wrap32 (s.ip.toInt + 2) } ∧
    (s.status = .ok → stepReturns t = true)) ∧
  (∀ (s : State) (index : Word), s.status = .ok → ¬ (0 ≤ index.toInt ∧ index.toInt < (s.roof : Int)) →
    step { s with ip := index } = .next { s with ip := index, status := .invalidAddress }) ∧
  (∀ index : Word, encode (.loop index) = [8, index])

/-! ### Data movement -/

/-- 43_data_movement.md R104. -/
def Obligations.MovrStoresItsImmediate : Prop :=
  (∀ (s : State) (r : Reg) (num : Word), ∃ t,
    exec (.movr r.index num) s = .next t ∧
    t = { s with regs := s.regs.set r num, ip := wrap32 (s.ip.toInt + 3) } ∧
    (s.status = .ok → stepReturns t = true)) ∧
  (∀ (s : State) (cell num : Word), InvalidRegCell cell →
    exec (.movr cell num) s = .next { s with status := .illegalOperand }) ∧
  (∀ cell num : Word, encode (.movr cell num) = [9, cell, num])

/-- 43_data_movement.md R105, read register by register: `reg1` holds the old `reg2`, `reg2` the old `reg1`, the others what
they held, also where the two are one register. -/
def Obligations.SwapExchangesTwoRegisters : Prop :=
  (∀ (s : State) (r1 r2 : Reg), ∃ t,
    exec (.swap r1.index r2.index) s = .next t ∧
    t = { s with regs := t.regs, ip := wrap32 (s.ip.toInt + 3) } ∧
    t.regs.get r1 = s.regs.get r2 ∧ t.regs.get r2 = s.regs.get r1 ∧
    (∀ q : Reg, q ≠ r1 → q ≠ r2 → t.regs.get q = s.regs.get q) ∧
    (s.status = .ok → stepReturns t = true)) ∧
  (∀ (s : State) (cell1 cell2 : Word), InvalidRegCell cell1 ∨ InvalidRegCell cell2 →
    exec (.swap cell1 cell2) s = .next { s with status := .illegalOperand }) ∧
  (∀ cell1 cell2 : Word, encode (.swap cell1 cell2) = [16, cell1, cell2])

/-! ### Stack and frame access -/

/-- 44_stack.md R108, with `frame_ok` of R106. -/
def Obligations.LoadReadsTheFrameCell : Prop :=
  (∀ (s : State) (r : Reg) (num : Word), s.FrameValid num → ∃ t,
    exec (.load r.index num) s = .next t ∧
    t = { s with
      regs := s.regs.set r (s.mem.read ((s.top : Int) + s.regs.d.toInt + num.toInt).toNat)
      ip := wrap32 (s.ip.toInt + 3) } ∧
    (s.status = .ok → stepReturns t = true)) ∧
  (∀ (s : State) (r : Reg) (num : Word), ¬ s.FrameValid num →
    exec (.load r.index num) s = .next { s with status := .invalidStackOperation }) ∧
  (∀ (s : State) (cell num : Word), InvalidRegCell cell →
    exec (.load cell num) s = .next { s with status := .illegalOperand }) ∧
  (∀ cell num : Word, encode (.load cell num) = [10, cell, num])

/-- 44_stack.md R109: the one cell `top + D + num` is written, and every other cell reads as before. -/
def Obligations.StoreWritesTheFrameCell : Prop :=
  (∀ (s : State) (r : Reg) (num : Word), s.FrameValid num → ∃ t,
    exec (.store r.index num) s = .next t ∧
    t = { s with mem := t.mem, ip := wrap32 (s.ip.toInt + 3) } ∧
    (s.mem.wf → t.mem.read ((s.top : Int) + s.regs.d.toInt + num.toInt).toNat = s.regs.get r) ∧
    (∀ a, a ≠ ((s.top : Int) + s.regs.d.toInt + num.toInt).toNat → t.mem.read a = s.mem.read a) ∧
    (s.status = .ok → stepReturns t = true)) ∧
  (∀ (s : State) (r : Reg) (num : Word), ¬ s.FrameValid num →
    exec (.store r.index num) s = .next { s with status := .invalidStackOperation }) ∧
  (∀ (s : State) (cell num : Word), InvalidRegCell cell →
    exec (.store cell num) s = .next { s with status := .illegalOperand }) ∧
  (∀ cell num : Word, encode (.store cell num) = [11, cell, num])

/-- 44_stack.md R110: the cell `BOTTOM - size` is written and becomes the head, and every other cell reads as before. On a
machine, the push that fails is the one to a full stack. -/
def Obligations.PushWritesTheNewHead : Prop :=
  (∀ (s : State) (r : Reg), (s.roof : Int) ≤ (s.bottom : Int) - s.size → ∃ t,
    exec (.push r.index) s = .next t ∧
    t = { s with
      mem := t.mem, top := ((s.bottom : Int) - s.size).toNat, size := s.size + 1
      ip := wrap32 (s.ip.toInt + 2) } ∧
    (s.mem.wf → t.mem.read ((s.bottom : Int) - s.size).toNat = s.regs.get r) ∧
    (∀ a, a ≠ ((s.bottom : Int) - s.size).toNat → t.mem.read a = s.mem.read a) ∧
    (s.status = .ok → stepReturns t = true)) ∧
  (∀ (s : State) (r : Reg), (s.bottom : Int) - s.size < (s.roof : Int) →
    exec (.push r.index) s = .next { s with status := .invalidStackOperation }) ∧
  (∀ s : State, s.Inv → ((s.bottom : Int) - s.size < (s.roof : Int) ↔ s.size = s.stackCap)) ∧
  (∀ (s : State) (cell : Word), InvalidRegCell cell →
    exec (.push cell) s = .next { s with status := .illegalOperand }) ∧
  (∀ cell : Word, encode (.push cell) = [17, cell])

/-- 44_stack.md R111, where the head is a cell of the image (R26): it is read, zeroed and left, and every other cell reads as
before. -/
def Obligations.PopReadsAndZeroesTheHead : Prop :=
  (∀ (s : State) (r : Reg), 0 < s.size → s.top ≤ s.bottom → ∃ t,
    exec (.pop r.index) s = .next t ∧
    t = { s with
      regs := s.regs.set r (s.mem.read s.top)
      mem := t.mem, top := (if 1 < s.size then s.top + 1 else s.top), size := s.size - 1
      ip := wrap32 (s.ip.toInt + 2) } ∧
    (s.mem.wf → t.mem.read s.top = 0) ∧ (∀ a, a ≠ s.top → t.mem.read a = s.mem.read a) ∧
    (s.status = .ok → stepReturns t = true)) ∧
  (∀ (s : State) (r : Reg), s.size = 0 →
    exec (.pop r.index) s = .next { s with status := .invalidStackOperation }) ∧
  (∀ (s : State) (cell : Word), InvalidRegCell cell →
    exec (.pop cell) s = .next { s with status := .illegalOperand }) ∧
  (∀ cell : Word, encode (.pop cell) = [18, cell])

/-- The model's own stop (log 9), no rule of the spec: where the head lies outside the image, which no run reaches, `pop`
faults by name. -/
def Obligations.PopOutsideTheImageFaults : Prop :=
  ∀ (s : State) (r : Reg), 0 < s.size → s.bottom < s.top → exec (.pop r.index) s = .fault .noSuchCell

/-- What `push` then `pop` leave (R110, R111; vector L1.5): under the invariant and with room, the popped register holds the
pushed value, and the other registers, the image, `top`, `size` and the status are as they were. -/
def Obligations.PopUndoesPush : Prop :=
  ∀ (s : State) (r q : Reg), s.Inv → s.size < s.stackCap →
    ∃ t u, exec (.push r.index) s = .next t ∧ exec (.pop q.index) t = .next u ∧
      u = { s with regs := s.regs.set q (s.regs.get r), ip := wrap32 (t.ip.toInt + 2) }

/-- 44_stack.md R106: a valid frame access of a machine meets a cell of the live window, so of the stack region and of the
image, and every cell of the live window is met by some displacement where D is 0. -/
def Obligations.FrameAccessMeetsTheLiveWindow : Prop :=
  (∀ (s : State) (num : Word), s.Inv → s.FrameValid num →
    ∃ a : Nat, (a : Int) = (s.top : Int) + s.regs.d.toInt + num.toInt ∧
      s.top ≤ a ∧ a ≤ s.bottom ∧ s.roof ≤ a ∧ a < s.memCells) ∧
  (∀ (s : State) (a : Nat), s.Inv → 0 < s.size → s.regs.d = 0 → s.top ≤ a → a ≤ s.bottom →
    s.FrameValid (wrap32 ((a : Int) - s.top)) ∧
      (s.top : Int) + s.regs.d.toInt + (wrap32 ((a : Int) - s.top)).toInt = a)

/-- 44_stack.md R107: with a live stack, the exact check and one that wraps `D + num` to 32 bits differ exactly where
`D + num + 2^32` lies in [0, BOTTOM - top], and there `load` raises INVALID_STACK_OPERATION. -/
def Obligations.FrameSumIsExactInTheWrappingBand : Prop :=
  ∀ (s : State) (num : Word), s.Inv → 0 < s.size →
    (((0 ≤ (wrap32 (s.regs.d.toInt + num.toInt)).toInt ∧
        (s.top : Int) + (wrap32 (s.regs.d.toInt + num.toInt)).toInt ≤ s.bottom) ↔ ¬ s.FrameValid num) ↔
      (0 ≤ s.regs.d.toInt + num.toInt + 2 ^ 32 ∧
        s.regs.d.toInt + num.toInt + 2 ^ 32 ≤ (s.bottom : Int) - s.top)) ∧
    (s.regs.d.toInt + num.toInt < -(2 ^ 31) → ∀ r : Reg,
      exec (.load r.index num) s = .next { s with status := .invalidStackOperation })

/-! ### Input and output -/

/-- 45_io.md R117: the three answers of an `IN_TOKEN` request, by `IN_PARSE` of the machine's device (R114). -/
def Obligations.InReadsAToken : Prop :=
  (∀ (s : State) (r : Reg) (v : Word) (rest : List Byte), s.dev.inputAnswers = true →
    inParse s.dev.parser s.dev.input = (.value v, rest) → ∃ t,
    exec (.inp r.index) s = .next t ∧
    t = { s with
      regs := s.regs.set r v, ip := wrap32 (s.ip.toInt + 2), dev := { s.dev with input := rest } } ∧
    (s.status = .ok → stepReturns t = true)) ∧
  (∀ (s : State) (r : Reg) (rest : List Byte), s.dev.inputAnswers = true →
    inParse s.dev.parser s.dev.input = (.endOfInput, rest) → ∃ t,
    exec (.inp r.index) s = .next t ∧
    t = { s with
      regs := (s.regs.set .C 0).set r (-1), ip := wrap32 (s.ip.toInt + 2), dev := { s.dev with input := rest } } ∧
    (s.status = .ok → stepReturns t = true)) ∧
  (∀ (s : State) (r : Reg) (rest : List Byte), s.dev.inputAnswers = true →
    inParse s.dev.parser s.dev.input = (.malformed, rest) →
    exec (.inp r.index) s = .next { s with status := .ioError, dev := { s.dev with input := rest } }) ∧
  (∀ (s : State) (cell : Word), InvalidRegCell cell →
    exec (.inp cell) s = .next { s with status := .illegalOperand }) ∧
  (∀ cell : Word, encode (.inp cell) = [12, cell])

/-- 45_io.md R119: the byte is zero-extended. -/
def Obligations.GetReadsOneByte : Prop :=
  (∀ (s : State) (r : Reg) (b : Byte) (rest : List Byte), s.dev.inputAnswers = true → s.dev.input = b :: rest → ∃ t,
    exec (.get r.index) s = .next t ∧
    t = { s with
      regs := s.regs.set r (wrap32 b.toNat), ip := wrap32 (s.ip.toInt + 2), dev := { s.dev with input := rest } } ∧
    (t.regs.get r).toInt = b.toNat ∧ (s.status = .ok → stepReturns t = true)) ∧
  (∀ (s : State) (r : Reg), s.dev.inputAnswers = true → s.dev.input = [] → ∃ t,
    exec (.get r.index) s = .next t ∧
    t = { s with regs := (s.regs.set .C 0).set r (-1), ip := wrap32 (s.ip.toInt + 2) } ∧
    (s.status = .ok → stepReturns t = true)) ∧
  (∀ (s : State) (cell : Word), InvalidRegCell cell →
    exec (.get cell) s = .next { s with status := .illegalOperand }) ∧
  (∀ cell : Word, encode (.get cell) = [13, cell])

/-- 45_io.md R118: at end of input `in C` and `get C` leave C = -1, and `in reg` and `get reg` leave C = 0 and -1 in any other
register. -/
def Obligations.EndOfInputWritesCThenTheOperand : Prop :=
  ∀ (s : State) (r : Reg) (rest : List Byte), s.dev.inputAnswers = true →
    (inParse s.dev.parser s.dev.input = (.endOfInput, rest) → ∃ t, exec (.inp r.index) s = .next t ∧
      (r = .C → t.regs.c.toInt = -1) ∧ (r ≠ .C → t.regs.c = 0 ∧ (t.regs.get r).toInt = -1)) ∧
    (s.dev.input = [] → ∃ t, exec (.get r.index) s = .next t ∧
      (r = .C → t.regs.c.toInt = -1) ∧ (r ≠ .C → t.regs.c = 0 ∧ (t.regs.get r).toInt = -1))

/-- 45_io.md R120: the raw cell goes to the device, and the stream gains its digits. -/
def Obligations.OutPassesItsRegister : Prop :=
  (∀ (s : State) (r : Reg), s.dev.outputAnswers = true → ∃ t,
    exec (.out r.index) s = .next t ∧
    t = { s with
      ip := wrap32 (s.ip.toInt + 2), dev := { s.dev with output := s.dev.output ++ [.dec (s.regs.get r)] } } ∧
    t.dev.outputBytes = s.dev.outputBytes ++ (OutItem.dec (s.regs.get r)).bytes ∧
    (s.status = .ok → stepReturns t = true)) ∧
  (∀ (s : State) (cell : Word), InvalidRegCell cell →
    exec (.out cell) s = .next { s with status := .illegalOperand }) ∧
  (∀ cell : Word, encode (.out cell) = [14, cell])

/-- 45_io.md R121: a value in [0,255] is appended as one byte; any other raises ILLEGAL_OPERAND, whether or not the device
would answer, and nothing is output. -/
def Obligations.PutWritesOneByteInRange : Prop :=
  (∀ (s : State) (r : Reg) (b : Byte), s.dev.outputAnswers = true → (s.regs.get r).toInt = b.toNat → ∃ t,
    exec (.put r.index) s = .next t ∧
    t = { s with
      ip := wrap32 (s.ip.toInt + 2), dev := { s.dev with output := s.dev.output ++ [.byte b] } } ∧
    t.dev.outputBytes = s.dev.outputBytes ++ [b] ∧ (s.status = .ok → stepReturns t = true)) ∧
  (∀ (s : State) (r : Reg), ¬ (0 ≤ (s.regs.get r).toInt ∧ (s.regs.get r).toInt ≤ 255) →
    exec (.put r.index) s = .next { s with status := .illegalOperand }) ∧
  (∀ (s : State) (cell : Word), InvalidRegCell cell →
    exec (.put cell) s = .next { s with status := .illegalOperand }) ∧
  (∀ cell : Word, encode (.put cell) = [15, cell])

/-- What the model answers where the device does not (45_io.md R113; D16 and U8: stuck; log 5): an I/O instruction whose checks
pass has no next state, and one whose checks fail raises all the same. -/
def Obligations.UnansweredRequestsAreStuck : Prop :=
  (∀ (s : State) (r : Reg), s.dev.inputAnswers = false →
    exec (.inp r.index) s = .fault .ioBlocked ∧ exec (.get r.index) s = .fault .ioBlocked) ∧
  (∀ (s : State) (r : Reg), s.dev.outputAnswers = false →
    exec (.out r.index) s = .fault .ioBlocked ∧
    (0 ≤ (s.regs.get r).toInt → (s.regs.get r).toInt ≤ 255 → exec (.put r.index) s = .fault .ioBlocked)) ∧
  (∀ (s : State) (i : Instr), i.isIo = true → i.wellFormed = false →
    exec i s = .next { s with status := .illegalOperand })

/-- 45_io.md R114, the default IN_PARSE: leading whitespace is skipped; with nothing left it is end of input; else the maximal
run of other bytes is consumed, is a value where it matches `[+-]?[0-9]+` and fits a cell, and is malformed otherwise. Whatever
IN_PARSE a machine was created with, a request consumes a prefix of the input. -/
def Obligations.DefaultTokenGrammar : Prop :=
  (∀ ws : List Byte, ws.all isSpaceByte = true → inParse .spec ws = (.endOfInput, [])) ∧
  (∀ ws ds rest : List Byte, ∀ sign : List Byte, ∀ m : Int,
    ws.all isSpaceByte = true → (sign = [] ∧ m = 1 ∨ sign = [0x2B] ∧ m = 1 ∨ sign = [0x2D] ∧ m = -1) →
    ds ≠ [] → ds.all isDigitByte = true → (∀ b bs, rest = b :: bs → isSpaceByte b = true) →
    inParse .spec (ws ++ (sign ++ ds) ++ rest) =
      (if -(2 ^ 31) ≤ m * decimalValue ds ∧ m * decimalValue ds ≤ 2 ^ 31 - 1
        then .value (wrap32 (m * decimalValue ds)) else .malformed, rest)) ∧
  (∀ ws tok rest : List Byte,
    ws.all isSpaceByte = true → tok ≠ [] → (∀ b ∈ tok, isSpaceByte b = false) →
    (∀ sign ds, sign = [] ∨ sign = [0x2B] ∨ sign = [0x2D] → ds ≠ [] → ds.all isDigitByte = true → tok ≠ sign ++ ds) →
    (∀ b bs, rest = b :: bs → isSpaceByte b = true) →
    inParse .spec (ws ++ tok ++ rest) = (.malformed, rest)) ∧
  (∀ (p : Parser) (input : List Byte), ∃ consumed, input = consumed ++ (inParse p input).2)

/-- 45_io.md R116: `OUT_BYTE` appends its byte, and `OUT_DEC(w)` digit bytes that write `w mod 2^32` in decimal, without a
leading zero but for 0 itself. A device that answers accepts, and no output instruction raises IO_ERROR. -/
def Obligations.OutputRendering : Prop :=
  (∀ b : Byte, (OutItem.byte b).bytes = [b]) ∧
  (∀ w : Word, (OutItem.dec w).bytes ≠ [] ∧ (OutItem.dec w).bytes.all isDigitByte = true ∧
    (decimalValue (OutItem.dec w).bytes : Int) = w.toInt % 2 ^ 32 ∧
    ((OutItem.dec w).bytes.head? = some 0x30 → (OutItem.dec w).bytes = [0x30])) ∧
  (∀ (d : Device) (item : OutItem), d.outputAnswers = true →
    ∃ d', d.accept item = some d' ∧ d'.outputBytes = d.outputBytes ++ item.bytes) ∧
  (∀ (s t : State) (cell : Word), s.status = .ok → exec (.out cell) s = .next t ∨ exec (.put cell) s = .next t →
    t.status ≠ .ioError)

/-- The device is reached only through `in`, `get`, `out` and `put` (60_exceptions.md R131): every other instruction does the
same whatever the device is, and leaves it alone. (The only fault among them is the model's own noSuchCell, log 9.) -/
def Obligations.OtherInstructionsIgnoreTheDevice : Prop :=
  ∀ (i : Instr) (s : State) (d : Device), i.isIo = false →
    (∀ t, exec i s = .next t → t.dev = s.dev ∧ exec i { s with dev := d } = .next { t with dev := d }) ∧
    (∀ f, exec i s = .fault f → exec i { s with dev := d } = .fault f)

/-! ### Fetch, decode and dispatch -/

/-- A step runs the decoded instruction (R78, R83): where the status is OK, `ip` lies in [0, ROOF) and the cells from `ip` on
decode to an instruction, the step is that instruction's handler at that state. -/
def Obligations.StepRunsTheDecodedInstruction : Prop :=
  ∀ (s : State) (i : Instr) (rest : List Word), s.status = .ok → s.InRegion →
    decodeCells (s.cellsFrom s.ip.toInt.toNat) = .ok (i, rest) → step s = exec i s

/-- 40_dispatch.md R82: an instruction whose last operand cell lies at or beyond MEM_CELLS raises INVALID_ADDRESS; one whose
cells lie in the image executes, whether or not operand cells lie in the stack region. -/
def Obligations.OperandCellsMustLieInTheImage : Prop :=
  (∀ (s : State) (i : Instr), s.status = .ok → s.InRegion → s.ip.toInt < s.memCells →
    (encode i).head? = some (s.cellAt 0) → (s.memCells : Int) ≤ s.ip.toInt + i.width - 1 →
    step s = .next { s with status := .invalidAddress }) ∧
  (∀ (s : State) (i : Instr), s.status = .ok → s.InRegion → s.Holds i → step s = exec i s)

/-- 40_dispatch.md R84, with R79 to R81: which status a step reports, the first of the list that applies, and what a rejected
instruction leaves: everything but `status`, the input among it, but for the input a malformed token used up (item 7). -/
def Obligations.ErrorPrecedence : Prop :=
  ∀ s : State,
    (s.status ≠ .ok → step s = .next s) ∧
    (s.status = .ok → ¬ s.InRegion → step s = .next { s with status := .invalidAddress }) ∧
    (s.status = .ok → s.InRegion → s.ip.toInt < s.memCells →
      (¬ (0 ≤ (s.cellAt 0).toInt ∧ (s.cellAt 0).toInt ≤ 18) → step s = .next { s with status := .illegalInstruction }) ∧
      (∀ i : Instr, (encode i).head? = some (s.cellAt 0) →
        ((s.memCells : Int) ≤ s.ip.toInt + i.width - 1 → step s = .next { s with status := .invalidAddress }) ∧
        (s.Holds i → i.wellFormed = false → step s = .next { s with status := .illegalOperand }) ∧
        (∀ e, s.Holds i → s.OwnError i e → step s = .next { s with status := e })) ∧
      (∀ (r : Reg) (rest : List Byte), s.Holds (.inp r.index) → s.dev.inputAnswers = true →
        inParse s.dev.parser s.dev.input = (.malformed, rest) →
        step s = .next { s with status := .ioError, dev := { s.dev with input := rest } }))

/-- 60_exceptions.md R122: every status a step sets has one of the causes the table lists. -/
def Obligations.EveryErrorHasItsCause : Prop :=
  ∀ s t : State, s.status = .ok → step s = .next t →
    (t.status = .illegalInstruction → s.InRegion ∧ ¬ (0 ≤ (s.cellAt 0).toInt ∧ (s.cellAt 0).toInt ≤ 18)) ∧
    (t.status = .illegalOperand → ∃ i, s.Holds i ∧ (i.wellFormed = false ∨ s.OwnError i .illegalOperand)) ∧
    (t.status = .invalidAddress → ¬ s.InRegion ∨
      ∃ i, (encode i).head? = some (s.cellAt 0) ∧ (s.memCells : Int) ≤ s.ip.toInt + i.width - 1) ∧
    (t.status = .invalidStackOperation → ∃ i, s.Holds i ∧ s.OwnError i .invalidStackOperation) ∧
    (t.status = .divByZero → ∃ r : Reg, s.Holds (.div r.index) ∧ s.regs.get r = 0) ∧
    (t.status = .ioError → ∃ r : Reg, s.Holds (.inp r.index) ∧
      (inParse s.dev.parser s.dev.input).1 = .malformed) ∧
    (t.status = .halted → s.Holds .halt)

/-- 00_scope.md R10 and 60_exceptions.md R126: a step that raises an error returns `false`, sets `status` and leaves every other
piece of state unchanged. The one exception (40_dispatch.md R86) is the input an `in` that ends in IO_ERROR consumed: what is
left is exactly what `IN_PARSE` left (45_io.md R114). From then on steps are no-ops. -/
def Obligations.RaisingChangesOnlyTheStatus : Prop :=
  ∀ s t : State, s.status = .ok → step s = .next t → t.status ≠ .ok → t.status ≠ .halted →
    (t.status = .ioError →
      t = { s with status := .ioError, dev := { s.dev with input := (inParse s.dev.parser s.dev.input).2 } }) ∧
    (t.status ≠ .ioError → t = { s with status := t.status }) ∧
    stepReturns t = false ∧ step t = .next t

/-- 40_dispatch.md R88: how a step moves the pointer; 42_control_flow.md R103: only `loop` transfers control. -/
def Obligations.PointerUpdate : Prop :=
  ∀ (i : Instr) (s t : State), s.status = .ok → exec i s = .next t →
    (∀ index, i = .loop index → s.regs.c.toInt ≠ 0 → t.ip = index) ∧
    ((∀ index, i = .loop index → s.regs.c.toInt = 0) → t.status = .ok ∨ i = .halt →
      t.ip = wrap32 (s.ip.toInt + i.width)) ∧
    (t.status ≠ .ok → i ≠ .halt → t.ip = s.ip)

/-- 10_state.md R23: on a machine, the pointer's advance never wraps. -/
def Obligations.PointerNeverWraps : Prop :=
  ∀ (s t : State) (i : Instr), s.Inv → s.status = .ok → s.InRegion → s.Holds i → step s = .next t →
    t.status = .ok ∨ i = .halt → (∀ index, i = .loop index → s.regs.c.toInt = 0) →
    t.ip.toInt = s.ip.toInt + i.width ∧ t.ip.toInt ≤ 2 ^ 31 - 1022

/-- The frame of the general registers, for all nineteen instructions (R19 and the instructions' rules): a register that no
rule says the instruction writes keeps its value. -/
def Obligations.OnlyNamedRegistersChange : Prop :=
  ∀ (i : Instr) (s t : State) (r : Reg), exec i s = .next t → ¬ i.Writes r → t.regs.get r = s.regs.get r

/-- The frame of the image and of the stack registers, for all nineteen instructions. 20_memory.md R49, R50: every instruction
but `store`, `push` and `pop` leaves the image alone; those three leave every cell alone but the one they compute, and on a
machine that one lies in [ROOF, BOTTOM]. 10_state.md R24 to R26: only `push` and `pop` change `top` and `size`, and none changes
ROOF, BOTTOM or has_stack. -/
def Obligations.OnlyStackCellsAreWritten : Prop :=
  ∀ (i : Instr) (s t : State), exec i s = .next t →
    (s.storesTo i = none → t.mem = s.mem) ∧
    (∀ a, s.storesTo i = some a → ∀ b, b ≠ a → t.mem.read b = s.mem.read b) ∧
    (s.Inv → ∀ b, t.mem.read b ≠ s.mem.read b → s.roof ≤ b ∧ b ≤ s.bottom) ∧
    ((∀ reg, i ≠ .push reg) → (∀ reg, i ≠ .pop reg) → t.top = s.top ∧ t.size = s.size) ∧
    t.roof = s.roof ∧ t.bottom = s.bottom ∧ t.hasStack = s.hasStack

/-! ### Invariants -/

/-- The model's State.reset (log 2, log 3, log 4) satisfies the invariant and is the machine `create` builds over the image of an
empty program. -/
def Obligations.ResetStateIsACreatedMachine : Prop :=
  State.reset.Inv ∧
  ∃ img, createMemory true [] 0 (Config.defaultMemCells 0 0) = .next img ∧
    create true img img.bottom 0 Device.reset = .next State.reset

/-- Every step keeps the invariant: the sizes, `top = BOTTOM - max(size - 1, 0)`, `size ≤ STACK_CAP`, the zero cells outside the
live window, and the image's canonical form (R24 to R27, R112). -/
def Obligations.StepKeepsTheInvariant : Prop :=
  ∀ s t : State, s.Inv → step s = .next t → t.Inv

/-- The same for everything the host can do to a machine, any number of times (R145): the machine stays the same machine, and its
instruction region is never written (R45, R50). -/
def Obligations.ReachedMachinesKeepTheInvariant : Prop :=
  ∀ s t : State, s.Inv → Reaches s t → t.Inv ∧ s.SameMachine t

/-- 10_state.md R26: the bounds of `top` and `size` that the invariant says. ROOF ≤ top holds of every machine with a stack;
of one without, top = BOTTOM lies one below ROOF (log 7). -/
def Obligations.StackBoundsOfAMachine : Prop :=
  ∀ s : State, s.Inv →
    s.top ≤ s.bottom ∧ (s.hasStack = true → s.roof ≤ s.top) ∧
    (s.hasStack = false → s.size = 0 ∧ s.roof = s.top + 1) ∧
    (s.size = 0 → s.top = s.bottom) ∧ (1 ≤ s.size → s.bottom - s.top + 1 = s.size)

/-- A machine's step never leaves the image (R53) and is never refused: it has a next state, or it waits on a device that
does not answer (R113). That a step which waits is the fault `ioBlocked` is the model's choice (log 5): R113 calls the machine
blocked, not faulted, and U8 calls it stuck. -/
def Obligations.MachineStepsComplete : Prop :=
  ∀ s : State, s.Inv →
    (∃ t, step s = .next t) ∨
    (step s = .fault .ioBlocked ∧ (s.dev.inputAnswers = false ∨ s.dev.outputAnswers = false))

/-! ### Loading, creation, reset -/

/-- 70_reset_and_hazards.md R137: the load error is exactly a byte length that is no multiple of 4. Beside it: `create` with other
arguments than the image's own is refused, and so is a creation for which the host has no memory (R139, R140). -/
def Obligations.LoadAndCreationRefusals : Prop :=
  (∀ (hasMemory : Bool) (bytes : List Byte) (cap : Int) (memCells : Nat),
    createMemory hasMemory bytes cap memCells = .refused .loadError ↔ bytes.length % 4 ≠ 0) ∧
  (∀ (hasMemory : Bool) (img : Image) (bottom cap : Int) (dev : Device),
    (¬ (bottom = img.bottom ∧ cap = img.stackCap) → create hasMemory img bottom cap dev = .refused .createMismatch) ∧
    (bottom = img.bottom → cap = img.stackCap → create false img bottom cap dev = .refused .allocationFailed))

/-- 70_reset_and_hazards.md R136 and 20_memory.md R46: the image of a program, cell by cell, little-endian, and zero from the
program's end on. -/
def Obligations.ImageHoldsTheProgram : Prop :=
  ∀ (bytes : List Byte) (cap : Int) (memCells : Nat), bytes.length % 4 = 0 → 0 ≤ cap →
    Config.validMemCells memCells (bytes.length / 4) cap.toNat →
    ∃ img, createMemory true bytes cap memCells = .next img ∧
      img.bottom = (memCells : Int) - 1 ∧
      (∀ i, i < bytes.length / 4 → img.cells.read i =
        wrap32 ((bytes.getD (4 * i) 0).toNat + 2 ^ 8 * (bytes.getD (4 * i + 1) 0).toNat +
          2 ^ 16 * (bytes.getD (4 * i + 2) 0).toNat + 2 ^ 24 * (bytes.getD (4 * i + 3) 0).toNat)) ∧
      (∀ i, bytes.length / 4 ≤ i → img.cells.read i = 0)

/-- 70_reset_and_hazards.md R138: what `create` builds, and that it satisfies the invariant. -/
def Obligations.CreatedMachinesSatisfyTheInvariant : Prop :=
  ∀ (bytes : List Byte) (cap : Int) (memCells : Nat) (img : Image) (dev : Device),
    createMemory true bytes cap memCells = .next img → ∃ s,
      create true img img.bottom cap dev = .next s ∧ s.Inv ∧
      s.regs = { a := 0, b := 0, c := 0, d := 0 } ∧ s.ip = 0 ∧ s.status = .ok ∧
      (s.bottom : Int) = img.bottom ∧ (s.top : Int) = img.bottom ∧ (s.roof : Int) = img.bottom - cap + 1 ∧
      s.size = 0 ∧ s.hasStack = decide (0 < cap) ∧ s.mem = img.cells ∧ s.dev = dev

/-- R6's default image size is admitted wherever any size is, and no admitted size is smaller. -/
def Obligations.DefaultImageSizeIsTheLeastAdmitted : Prop :=
  ∀ p cap memCells : Nat, Config.validMemCells memCells p cap →
    Config.validMemCells (Config.defaultMemCells p cap) p cap ∧ Config.defaultMemCells p cap ≤ memCells

/-- 70_reset_and_hazards.md R141: reset, register by register and cell by cell, in any status. -/
def Obligations.HostResetOperation : Prop :=
  ∀ s : State,
    s.hostReset = { s with
      regs := { a := 0, b := 0, c := 0, d := 0 }, ip := 0, size := 0, status := .ok, top := s.bottom
      mem := s.hostReset.mem } ∧
    (∀ a, s.roof ≤ a → a ≤ s.bottom → s.hostReset.mem.read a = 0) ∧
    (∀ a, ¬ (s.roof ≤ a ∧ a ≤ s.bottom) → s.hostReset.mem.read a = s.mem.read a)

/-- 70_reset_and_hazards.md R142: after any execution of a created machine, reset leaves the machine `create` gave, the host's
streams apart. -/
def Obligations.ResetRestoresTheCreatedMachine : Prop :=
  ∀ (bytes : List Byte) (cap : Int) (memCells : Nat) (img : Image) (dev : Device) (s t : State),
    createMemory true bytes cap memCells = .next img → create true img img.bottom cap dev = .next s →
    Reaches s t → t.hostReset = { s with dev := t.dev }

/-! ### The host's calls -/

/-- 10_state.md R40: `get_register` and `set_register`, in every status, and their refusal outside [0,3]. -/
def Obligations.HostRegisterAccess : Prop :=
  (∀ (s : State) (r : Reg), hostCall (.getRegister r.index) (.live s) = .next (.live s, .word (s.regs.get r))) ∧
  (∀ (s : State) (r : Reg) (v : Word), ∃ t,
    hostCall (.setRegister r.index v) (.live s) = .next (.live t, .nothing) ∧
    t = { s with regs := t.regs } ∧ t.regs.get r = v ∧ ∀ q : Reg, q ≠ r → t.regs.get q = s.regs.get q) ∧
  (∀ (s : State) (cell v : Word), InvalidRegCell cell →
    hostCall (.getRegister cell) (.live s) = .refused .invalidRegisterIndex ∧
    hostCall (.setRegister cell v) (.live s) = .refused .invalidRegisterIndex)

/-- 10_state.md R41, 40_dispatch.md R87 and 70_reset_and_hazards.md R143: `get_status` and `get_stack_size` change nothing, `step`
returns `true` iff it leaves status OK, and a destroyed machine refuses every call. -/
def Obligations.HostObservations : Prop :=
  (∀ s : State, hostCall .getStatus (.live s) = .next (.live s, .status s.status)) ∧
  (∀ s : State, s.Inv → ∃ w : Word,
    hostCall .getStackSize (.live s) = .next (.live s, .word w) ∧ w.toInt = s.size) ∧
  (∀ s t : State, step s = .next t → ∃ b,
    hostCall .step (.live s) = .next (.live t, .flag b) ∧ (b = true ↔ t.status = .ok)) ∧
  (∀ s : State, hostCall .destroy (.live s) = .next (.destroyed, .nothing)) ∧
  (∀ call : HostCall, hostCall call .destroyed = .refused .machineDestroyed)

/-- 40_dispatch.md R91: `run(n)` leaves the same state as `n` successive steps. -/
def Obligations.RunIsRepeatedStepping : Prop :=
  ∀ (n : Word) (s t : State), 0 ≤ n.toInt →
    ((∃ k, run n s = .next (t, k)) ↔ Host.Core.run Sys2Proof.core n.toInt.toNat s = .next t)

/-- 40_dispatch.md R89: what `run` returns: 0 where n ≤ 0, and the state is left alone; else the 1-based index of the step that
failed, positive for HALTED and negative for an error, or +n where every step succeeded. -/
def Obligations.RunCountsItsSteps : Prop :=
  (∀ (n : Word) (s : State), n.toInt ≤ 0 → run n s = .next (s, 0)) ∧
  (∀ (n k : Word) (s t : State), 0 < n.toInt → run n s = .next (t, k) →
    ∃ j : Nat, 1 ≤ j ∧ (j : Int) ≤ n.toInt ∧ Host.Core.run Sys2Proof.core j s = .next t ∧
      (∀ i, 1 ≤ i → i < j → ∃ u : State, Host.Core.run Sys2Proof.core i s = .next u ∧ u.status = .ok) ∧
      (t.status = .ok → (j : Int) = n.toInt ∧ k.toInt = j) ∧
      (t.status = .halted → k.toInt = j) ∧
      (t.status ≠ .ok → t.status ≠ .halted → k.toInt = -(j : Int)))
end

