-- ==== Sys2Proof/Laws/Decode.lean ====
section
/-! SUPPORT. Cells and bytes, and the opcode map's inversion. -/

namespace Sys2Proof

/-- The width a cell's opcode gives is the width of the instruction it makes (R66). -/
theorem formatOf_width_pos {opc : Word} {f : Format} (_h : formatOf opc = some f) : 1 ≤ f.width ∧ f.width ≤ 3 := by
  cases f <;> simp [Format.width]

/-- Every instruction is what its own opcode's format builds from its own operand cells. -/
theorem encode_shape (i : Instr) :
    ∃ opc f ops, encode i = opc :: ops ∧ formatOf opc = some f ∧ f.width = ops.length + 1 ∧
      f.build (ops.getD 0 0) (ops.getD 1 0) = i := by
  cases i <;> exact ⟨_, _, _, rfl, rfl, rfl, rfl⟩

/-- A format's instruction encodes to an opcode and exactly the operand cells the format reads. -/
theorem encode_build {opc : Word} {f : Format} (h : formatOf opc = some f) (o1 o2 : Word) :
    encode (f.build o1 o2) = (opc :: [o1, o2]).take f.width := by
  unfold formatOf at h
  iterate 19
    rcases Decidable.em (opc = _) with hc | hc
    · rw [if_pos hc] at h
      cases h; subst hc; rfl
    rw [if_neg hc] at h
  cases h

/-! ### Byte order -/

theorem cellOfBytes_toNat (b0 b1 b2 b3 : Byte) :
    (cellOfBytes b0 b1 b2 b3).toNat =
      b0.toNat + 2 ^ 8 * b1.toNat + 2 ^ 16 * b2.toNat + 2 ^ 24 * b3.toNat := by
  have h : cellOfBytes b0 b1 b2 b3 =
      BitVec.ofNat 32 (b0.toNat + 2 ^ 8 * b1.toNat + 2 ^ 16 * b2.toNat + 2 ^ 24 * b3.toNat) := by
    rw [← BitVec.ofInt_natCast]
    simp [cellOfBytes, wrap32]
  rw [h, BitVec.toNat_ofNat]
  have h0 := b0.isLt
  have h1 := b1.isLt
  have h2 := b2.isLt
  have h3 := b3.isLt
  omega

theorem lowByte_toNat (w : Word) : (lowByte w).toNat = w.toNat % 2 ^ 8 := by
  simp [lowByte]

theorem lowByte_shift_toNat (w : Word) (k : Nat) : (lowByte (w >>> k)).toNat = w.toNat / 2 ^ k % 2 ^ 8 := by
  simp [lowByte, Nat.shiftRight_eq_div_pow]

/-- A cell is assembled from its own bytes (R46). -/
theorem cellOfBytes_bytes (w : Word) :
    cellOfBytes (lowByte w) (lowByte (w >>> 8)) (lowByte (w >>> 16)) (lowByte (w >>> 24)) = w := by
  apply BitVec.eq_of_toNat_eq
  rw [cellOfBytes_toNat, lowByte_toNat, lowByte_shift_toNat, lowByte_shift_toNat, lowByte_shift_toNat]
  have := w.isLt
  omega

/-- The bytes of an assembled cell are the bytes it was assembled from. -/
theorem bytesOfCell_cellOfBytes (b0 b1 b2 b3 : Byte) : bytesOfCell (cellOfBytes b0 b1 b2 b3) = [b0, b1, b2, b3] := by
  have h0 := b0.isLt
  have h1 := b1.isLt
  have h2 := b2.isLt
  have h3 := b3.isLt
  simp only [bytesOfCell, List.cons.injEq, and_true]
  refine ⟨?_, ?_, ?_, ?_⟩ <;> apply BitVec.eq_of_toNat_eq
  · rw [lowByte_toNat, cellOfBytes_toNat]; omega
  all_goals rw [lowByte_shift_toNat, cellOfBytes_toNat]; omega

/-- The bytes of a list of cells are read back as those cells. -/
theorem cellsOfBytes_flatMap (cs : List Word) : cellsOfBytes (cs.flatMap bytesOfCell) = some cs := by
  induction cs with
  | nil => rfl
  | cons c cs ih =>
    simp only [List.flatMap_cons, bytesOfCell, List.cons_append, List.nil_append, cellsOfBytes,
      cellOfBytes_bytes] at ih ⊢
    simp [ih]

/-- The only byte string that reads as a list of cells is the bytes of those cells. -/
theorem flatMap_of_cellsOfBytes {bs : List Byte} {cs : List Word} (h : cellsOfBytes bs = some cs) :
    bs = cs.flatMap bytesOfCell := by
  induction bs using cellsOfBytes.induct generalizing cs with
  | case1 => cases h; rfl
  | case2 b0 b1 b2 b3 rest ih =>
    simp only [cellsOfBytes, Option.map_eq_some_iff] at h
    obtain ⟨cs', h', rfl⟩ := h
    simp only [List.flatMap_cons, bytesOfCell_cellOfBytes, ← ih h']
    rfl
  | case3 bs h0 h4 =>
    unfold cellsOfBytes at h
    split at h
    · exact absurd rfl h0
    · exact absurd rfl (h4 _ _ _ _ _)
    · cases h

end Sys2Proof
end

