-- ==== Sys2Proof/Laws/Memory.lean ====
section
/-! SUPPORT. The laws of the Memory Image: read after write, the frame of a write, and that every operation keeps the canonical
form. -/

namespace Sys2Proof.Machine

@[simp] theorem Memory.read_nil (a : Nat) : Memory.read [] a = 0 := rfl

theorem Memory.wf_nil : Memory.wf [] := ⟨List.Pairwise.nil, by simp⟩

theorem Memory.wf_cons {k : Nat} {v : Word} {m : Memory} :
    Memory.wf ((k, v) :: m) ↔ v ≠ 0 ∧ (∀ e ∈ m, k < e.1) ∧ Memory.wf m := by
  simp only [Memory.wf, List.pairwise_cons, List.mem_cons, forall_eq_or_imp]
  constructor
  · rintro ⟨⟨h1, h2⟩, h3, h4⟩; exact ⟨h3, h1, h2, h4⟩
  · rintro ⟨h3, h1, h2, h4⟩; exact ⟨⟨h1, h2⟩, h3, h4⟩

/-- An address that no pair lists reads 0. -/
theorem Memory.read_eq_zero {m : Memory} {a : Nat} (h : ∀ e ∈ m, e.1 ≠ a) : m.read a = 0 := by
  induction m with
  | nil => rfl
  | cons e m ih =>
    obtain ⟨k, v⟩ := e
    have hk : a ≠ k := fun hk => h (k, v) (by simp) hk.symm
    simp only [Memory.read, if_neg hk]
    exact ih fun e he => h e (by simp [he])

/-- An address that does not read 0 is listed. -/
theorem Memory.exists_mem_of_read_ne_zero {m : Memory} {a : Nat} (h : m.read a ≠ 0) : ∃ e ∈ m, e.1 = a := by
  by_contra hn
  push Not at hn
  exact h (Memory.read_eq_zero hn)

/-- The frame of a write: every other cell reads as before, whatever the image. -/
theorem Memory.read_write_of_ne (m : Memory) {a b : Nat} (v : Word) (h : b ≠ a) :
    (m.write a v).read b = m.read b := by
  induction m with
  | nil => simp only [Memory.write]; split <;> simp [Memory.read, h]
  | cons e m ih =>
    obtain ⟨k, w⟩ := e
    simp only [Memory.write]
    split
    · split
      · rfl
      · simp [Memory.read, h]
    · split
      · next hk =>
        subst hk
        split <;> simp [Memory.read, h]
      · simp only [Memory.read]; split
        · rfl
        · exact ih

/-- Read after write, in a canonical image. -/
theorem Memory.read_write_same {m : Memory} (hm : m.wf) (a : Nat) (v : Word) : (m.write a v).read a = v := by
  induction m with
  | nil =>
    simp only [Memory.write]; split
    · next hv => simp [hv]
    · simp [Memory.read]
  | cons e m ih =>
    obtain ⟨k, w⟩ := e
    obtain ⟨-, hlt, hm'⟩ := Memory.wf_cons.mp hm
    simp only [Memory.write]
    split
    · next hak =>
      split
      · next hv =>
        subst hv
        apply Memory.read_eq_zero
        intro e he
        rcases List.mem_cons.mp he with rfl | he
        · exact Nat.ne_of_gt hak
        · have := hlt e he; omega
      · simp [Memory.read]
    · split
      · next hak =>
        subst hak
        split
        · next hv =>
          subst hv
          exact Memory.read_eq_zero fun e he => by have := hlt e he; omega
        · simp [Memory.read]
      · next hak => simp only [Memory.read, if_neg hak]; exact ih hm'

/-- What a write lists: the old pairs, and the written one. -/
theorem Memory.mem_write {m : Memory} {a : Nat} {v : Word} {e : Nat × Word} (h : e ∈ m.write a v) :
    e ∈ m ∨ (e = (a, v) ∧ v ≠ 0) := by
  induction m with
  | nil =>
    simp only [Memory.write] at h
    split at h
    · simp at h
    · next hv => exact .inr ⟨by simpa using h, hv⟩
  | cons p m ih =>
    obtain ⟨k, w⟩ := p
    simp only [Memory.write] at h
    split at h
    · split at h
      · exact .inl h
      · next hv =>
        rcases List.mem_cons.mp h with h | h
        · exact .inr ⟨h, hv⟩
        · exact .inl h
    · split at h
      · split at h
        · exact .inl (List.mem_cons_of_mem _ h)
        · next hv =>
          rcases List.mem_cons.mp h with h | h
          · exact .inr ⟨h, hv⟩
          · exact .inl (List.mem_cons_of_mem _ h)
      · rcases List.mem_cons.mp h with h | h
        · exact .inl (by simp [h])
        · rcases ih h with h | h
          · exact .inl (List.mem_cons_of_mem _ h)
          · exact .inr h

/-- A write keeps the canonical form. -/
theorem Memory.wf_write {m : Memory} (hm : m.wf) (a : Nat) (v : Word) : (m.write a v).wf := by
  induction m with
  | nil =>
    simp only [Memory.write]; split
    · exact Memory.wf_nil
    · next hv => exact Memory.wf_cons.mpr ⟨hv, by simp, Memory.wf_nil⟩
  | cons p m ih =>
    obtain ⟨k, w⟩ := p
    obtain ⟨hw, hlt, hm'⟩ := Memory.wf_cons.mp hm
    simp only [Memory.write]
    split
    · next hak =>
      split
      · exact hm
      · next hv =>
        refine Memory.wf_cons.mpr ⟨hv, fun e he => ?_, hm⟩
        rcases List.mem_cons.mp he with rfl | he
        · exact hak
        · exact lt_trans hak (hlt e he)
    · next hak =>
      split
      · next hk =>
        subst hk
        split
        · exact hm'
        · next hv => exact Memory.wf_cons.mpr ⟨hv, hlt, hm'⟩
      · next hk =>
        refine Memory.wf_cons.mpr ⟨hw, fun e he => ?_, ih hm'⟩
        rcases Memory.mem_write he with he | ⟨rfl, -⟩
        · exact hlt e he
        · have : k ≠ a := fun h => hk h.symm
          simp only; omega

/-- Zeroing a range keeps the canonical form. -/
theorem Memory.wf_zeroRange {m : Memory} (hm : m.wf) (lo hi : Nat) : (m.zeroRange lo hi).wf :=
  ⟨hm.1.sublist List.filter_sublist, fun e he => hm.2 e (List.mem_of_mem_filter he)⟩

/-- A cell of a zeroed range reads 0. -/
theorem Memory.read_zeroRange_inside (m : Memory) {lo hi a : Nat} (h : lo ≤ a ∧ a ≤ hi) :
    (m.zeroRange lo hi).read a = 0 := by
  apply Memory.read_eq_zero
  rintro e he rfl
  simp [Memory.zeroRange, h] at he

/-- A cell outside a zeroed range reads as before. -/
theorem Memory.read_zeroRange_outside (m : Memory) {lo hi a : Nat} (h : ¬ (lo ≤ a ∧ a ≤ hi)) :
    (m.zeroRange lo hi).read a = m.read a := by
  induction m with
  | nil => rfl
  | cons e m ih =>
    obtain ⟨k, v⟩ := e
    simp only [Memory.zeroRange, List.filter_cons] at ih ⊢
    split
    · simp only [Memory.read]; split
      · rfl
      · exact ih
    · next hk =>
      have hak : a ≠ k := by
        rintro rfl
        simp at hk
        exact h hk
      simp only [Memory.read, if_neg hak]
      exact ih

/-- What `ofCells` lists lies between the first address and the last. -/
theorem Memory.mem_ofCells {cs : List Word} {a : Nat} {e : Nat × Word} (h : e ∈ Memory.ofCells a cs) :
    a ≤ e.1 ∧ e.1 < a + cs.length := by
  induction cs generalizing a with
  | nil => simp [Memory.ofCells] at h
  | cons c cs ih =>
    simp only [Memory.ofCells] at h
    simp only [List.length_cons]
    split at h
    · have := ih h; omega
    · rcases List.mem_cons.mp h with rfl | h
      · simp only; omega
      · have := ih h; omega

/-- Laying out cells gives a canonical image. -/
theorem Memory.wf_ofCells (cs : List Word) (a : Nat) : (Memory.ofCells a cs).wf := by
  induction cs generalizing a with
  | nil => exact Memory.wf_nil
  | cons c cs ih =>
    simp only [Memory.ofCells]
    split
    · exact ih (a + 1)
    · next hc =>
      exact Memory.wf_cons.mpr ⟨hc, fun e he => by have := Memory.mem_ofCells he; omega, ih (a + 1)⟩

/-- Two canonical images that read alike everywhere are the same list. -/
theorem Memory.ext_read {m n : Memory} (hm : m.wf) (hn : n.wf) (h : ∀ a, m.read a = n.read a) : m = n := by
  induction m generalizing n with
  | nil =>
    cases n with
    | nil => rfl
    | cons e n =>
      obtain ⟨k, v⟩ := e
      have := h k
      simp [Memory.read] at this
      exact absurd this.symm (Memory.wf_cons.mp hn).1
  | cons e m ih =>
    obtain ⟨k, v⟩ := e
    obtain ⟨hv, hk, hm'⟩ := Memory.wf_cons.mp hm
    cases n with
    | nil =>
      have := h k
      simp [Memory.read] at this
      exact absurd this hv
    | cons f n =>
      obtain ⟨l, w⟩ := f
      obtain ⟨hw, hl, hn'⟩ := Memory.wf_cons.mp hn
      have hmk : ∀ a, a ≤ k → Memory.read m a = 0 := fun a ha =>
        Memory.read_eq_zero fun e he => by have := hk e he; omega
      have hnl : ∀ a, a ≤ l → Memory.read n a = 0 := fun a ha =>
        Memory.read_eq_zero fun e he => by have := hl e he; omega
      have hkl : k = l := by
        rcases lt_trichotomy k l with hlt | heq | hgt
        · have := h k
          simp only [Memory.read, if_true, if_neg (Nat.ne_of_lt hlt), hnl k (le_of_lt hlt)] at this
          exact absurd this hv
        · exact heq
        · have := h l
          simp only [Memory.read, if_true, if_neg (Nat.ne_of_lt hgt), hmk l (le_of_lt hgt)] at this
          exact absurd this.symm hw
      subst hkl
      have hvw : v = w := by simpa [Memory.read] using h k
      subst hvw
      congr 1
      refine ih hm' hn' fun a => ?_
      by_cases ha : a = k
      · subst ha; rw [hmk a le_rfl, hnl a le_rfl]
      · simpa [Memory.read, ha] using h a

end Sys2Proof.Machine
end

