-- ==== Sys2Proof/Laws/State.lean ====
section
/-! SUPPORT. The small lemmas of the records: one per field per update, true by `rfl`, so that no later proof unfolds an update. -/

namespace Sys2Proof.Machine

/-! ### Registers -/

@[simp] theorem Regs.get_A (x : Regs) : x.get .A = x.a := rfl
@[simp] theorem Regs.get_B (x : Regs) : x.get .B = x.b := rfl
@[simp] theorem Regs.get_C (x : Regs) : x.get .C = x.c := rfl
@[simp] theorem Regs.get_D (x : Regs) : x.get .D = x.d := rfl

@[simp] theorem Regs.get_set_same (x : Regs) (i : Reg) (v : Word) : (x.set i v).get i = v := by
  cases i <;> rfl

@[simp] theorem Regs.get_set_of_ne (x : Regs) {i j : Reg} (v : Word) (h : j ≠ i) :
    (x.set i v).get j = x.get j := by
  cases i <;> cases j <;> first | rfl | exact absurd rfl h

@[simp] theorem Regs.set_get (x : Regs) (i : Reg) : x.set i (x.get i) = x := by
  cases i <;> rfl

@[simp] theorem Regs.set_set_same (x : Regs) (i : Reg) (v w : Word) : (x.set i v).set i w = x.set i w := by
  cases i <;> rfl

/-- Two register files with the same four registers are equal. -/
theorem Regs.ext_get {x y : Regs} (h : ∀ i, x.get i = y.get i) : x = y := by
  cases x; cases y
  simp only [Regs.mk.injEq]
  exact ⟨h .A, h .B, h .C, h .D⟩

@[simp] theorem Regs.port_none (x : Regs) : x.port none = x := rfl
@[simp] theorem Regs.port_some (x : Regs) (i : Reg) (v : Word) : x.port (some (i, v)) = x.set i v := rfl
@[simp] theorem registerFile_run (wr0 wr1 : Option (Reg × Word)) (x : Regs) :
    registerFile false wr0 wr1 x = (x.port wr0).port wr1 := rfl
@[simp] theorem registerFile_reset (wr0 wr1 : Option (Reg × Word)) (x : Regs) :
    registerFile true wr0 wr1 x = { a := 0, b := 0, c := 0, d := 0 } := rfl

@[simp] theorem programCounter_reset (next : Option Word) (ip : Word) : programCounter true next ip = 0 := rfl
@[simp] theorem programCounter_write (next ip : Word) : programCounter false (some next) ip = next := rfl
@[simp] theorem programCounter_hold (ip : Word) : programCounter false none ip = ip := rfl

@[simp] theorem Memory.port_none (m : Memory) : m.port none = m := rfl
@[simp] theorem Memory.port_some (m : Memory) (a : Nat) (v : Word) : m.port (some (a, v)) = m.write a v := rfl

/-! ### The commit, field by field -/

section
variable (c : Commit) (s : State)

@[simp] theorem commit_regs : (commit c s).regs = (s.regs.port c.wr0).port c.wr1 := rfl
@[simp] theorem commit_ip : (commit c s).ip = programCounter false c.pcNext s.ip := rfl
@[simp] theorem commit_status : (commit c s).status = c.status.getD s.status := rfl
@[simp] theorem commit_top : (commit c s).top = (c.stackNext.map Prod.fst).getD s.top := rfl
@[simp] theorem commit_size : (commit c s).size = (c.stackNext.map Prod.snd).getD s.size := rfl
@[simp] theorem commit_roof : (commit c s).roof = s.roof := rfl
@[simp] theorem commit_bottom : (commit c s).bottom = s.bottom := rfl
@[simp] theorem commit_hasStack : (commit c s).hasStack = s.hasStack := rfl
@[simp] theorem commit_mem : (commit c s).mem = s.mem.port c.memWrite := rfl
@[simp] theorem commit_dev : (commit c s).dev = c.device.getD s.dev := rfl
@[simp] theorem commit_memCells : (commit c s).memCells = s.memCells := rfl
@[simp] theorem commit_stackCap : (commit c s).stackCap = s.stackCap := rfl

/-- A commit that writes nothing is no change. -/
@[simp] theorem commit_empty : commit {} s = s := rfl

end

/-! ### The host's reset, field by field -/

section
variable (s : State)

@[simp] theorem hostReset_regs : s.hostReset.regs = { a := 0, b := 0, c := 0, d := 0 } := rfl
@[simp] theorem hostReset_ip : s.hostReset.ip = 0 := rfl
@[simp] theorem hostReset_status : s.hostReset.status = .ok := rfl
@[simp] theorem hostReset_top : s.hostReset.top = s.bottom := rfl
@[simp] theorem hostReset_size : s.hostReset.size = 0 := rfl
@[simp] theorem hostReset_roof : s.hostReset.roof = s.roof := rfl
@[simp] theorem hostReset_bottom : s.hostReset.bottom = s.bottom := rfl
@[simp] theorem hostReset_hasStack : s.hostReset.hasStack = s.hasStack := rfl
@[simp] theorem hostReset_mem : s.hostReset.mem = s.mem.zeroRange s.roof s.bottom := rfl
@[simp] theorem hostReset_dev : s.hostReset.dev = s.dev := rfl
@[simp] theorem hostReset_memCells : s.hostReset.memCells = s.memCells := rfl
@[simp] theorem hostReset_stackCap : s.hostReset.stackCap = s.stackCap := rfl

end

end Sys2Proof.Machine
end

