-- ==== Sys2Proof/Laws/Ops.lean ====
section
/-! SUPPORT. One lemma per shared operation that says once what it can do; statements about instructions cite these. -/

namespace Sys2Proof.Machine

/-! ### Operands -/

theorem regOperand_eq_some_iff {cell : Word} {r : Reg} :
    regOperand cell = some r ↔ cell.toInt = (match r with | .A => 0 | .B => 1 | .C => 2 | .D => 3) := by
  unfold regOperand
  cases r <;> (repeat' split) <;> simp_all

/-- A register operand is invalid exactly where the cell lies outside [0,3] (R20). -/
theorem regOperand_eq_none_iff {cell : Word} : regOperand cell = none ↔ ¬ (0 ≤ cell.toInt ∧ cell.toInt ≤ 3) := by
  unfold regOperand
  (repeat' split) <;> simp <;> omega

/-- The decoder's well-formedness check and the machine's operand check agree. -/
theorem validRegCell_eq (cell : Word) : validRegCell cell = (regOperand cell).isSome := by
  rw [Bool.eq_iff_iff, Option.isSome_iff_ne_none, ne_eq, regOperand_eq_none_iff, not_not]
  simp [validRegCell]

theorem withReg_some {cell : Word} {s : State} {k : Reg → StepOutcome} {r : Reg} (h : regOperand cell = some r) :
    withReg cell s k = k r := by
  simp [withReg, h]

theorem withReg_none {cell : Word} {s : State} {k : Reg → StepOutcome} (h : regOperand cell = none) :
    withReg cell s k = raise .illegalOperand s := by
  simp [withReg, h]

/-- What a handler with a register operand can answer. -/
theorem withReg_next {cell : Word} {s t : State} {k : Reg → StepOutcome} (h : withReg cell s k = .next t) :
    (∃ r, regOperand cell = some r ∧ k r = .next t) ∨
      (regOperand cell = none ∧ t = commit { status := some .illegalOperand } s) := by
  cases hr : regOperand cell with
  | some r => exact .inl ⟨r, rfl, by rwa [withReg_some hr] at h⟩
  | none =>
    rw [withReg_none hr] at h
    exact .inr ⟨rfl, (by simpa [raise] using h.symm)⟩

/-! ### Ends of a step -/

theorem succeed_next {w : Nat} {c : Commit} {s t : State} (h : succeed w c s = .next t) :
    t = commit { c with pcNext := some (nextIp s w) } s := by
  simpa [succeed] using h.symm

theorem raise_next {e : Status} {s t : State} (h : raise e s = .next t) : t = commit { status := some e } s := by
  simpa [raise] using h.symm

/-- Raising an error is the update of `status` alone (R10, R126). -/
theorem raise_eq (e : Status) (s : State) : raise e s = .next { s with status := e } := rfl

/-! ### Cells -/

theorem hasCell_iff {s : State} {a : Int} : s.hasCell a = true ↔ 0 ≤ a ∧ a < (s.memCells : Int) := by
  simp [State.hasCell]

theorem withCell_ok {s : State} {a : Nat} {k : Nat → Word → StepOutcome} (h : a < s.memCells) :
    withCell s (a : Int) k = k a (s.mem.read a) := by
  have : s.hasCell (a : Int) = true := hasCell_iff.mpr ⟨by omega, by exact_mod_cast h⟩
  simp [withCell, this]

theorem withCell_next {s t : State} {a : Int} {k : Nat → Word → StepOutcome} (h : withCell s a k = .next t) :
    (0 ≤ a ∧ a < (s.memCells : Int)) ∧ k a.toNat (s.mem.read a.toNat) = .next t := by
  unfold withCell at h
  split at h
  · next hc => exact ⟨hasCell_iff.mp hc, h⟩
  · cases h

/-! ### The stack boundary checker -/

theorem frameOk_iff {s : State} {p a : Int} :
    frameOk s p a = true ↔ s.hasStack = true ∧ 0 < s.size ∧ 0 ≤ p ∧ a ≤ (s.bottom : Int) := by
  simp [frameOk, and_assoc]

theorem withStack_next {req : StackReq} {num : Word} {s t : State} {k : StackOut → StepOutcome}
    (h : withStack req num s k = .next t) :
    ((stackCheck req (translator s num).dPlusNum (translator s num).frameAddr s).stackOk = true ∧
        k (stackCheck req (translator s num).dPlusNum (translator s num).frameAddr s) = .next t) ∨
      ((stackCheck req (translator s num).dPlusNum (translator s num).frameAddr s).stackOk = false ∧
        t = commit { status := some .invalidStackOperation } s) := by
  simp only [withStack] at h
  split at h
  · next hc => exact .inl ⟨hc, h⟩
  · next hc => exact .inr ⟨by simpa using hc, raise_next h⟩

/-! ### The I/O port -/

theorem transact_next {α : Type} {answer : Option α} {t : State} {k : α → StepOutcome}
    (h : transact answer k = .next t) : ∃ r, answer = some r ∧ k r = .next t := by
  cases answer with
  | none => cases h
  | some r => exact ⟨r, rfl, h⟩

/-- An input request leaves the device as it was but for its input. -/
theorem inToken_some {d d' : Device} {o : TokenOutcome} (h : d.inToken = some (o, d')) :
    d.inputAnswers = true ∧ o = (inParse d.parser d.input).1 ∧
      d' = { d with input := (inParse d.parser d.input).2 } := by
  unfold Device.inToken at h
  split at h
  · next ha =>
    simp only [Option.some.injEq, Prod.mk.injEq] at h
    exact ⟨ha, h.1.symm, h.2.symm⟩
  · cases h

theorem inByte_some {d d' : Device} {o : ByteOutcome} (h : d.inByte = some (o, d')) :
    d.inputAnswers = true ∧
      ((d.input = [] ∧ o = .endOfInput ∧ d' = d) ∨
        ∃ b rest, d.input = b :: rest ∧ o = .byte b ∧ d' = { d with input := rest }) := by
  unfold Device.inByte at h
  split at h
  · next ha =>
    refine ⟨ha, ?_⟩
    split at h
    · next hi =>
      simp only [Option.some.injEq, Prod.mk.injEq] at h
      exact .inl ⟨hi, h.1.symm, h.2.symm⟩
    · next b rest hi =>
      simp only [Option.some.injEq, Prod.mk.injEq] at h
      exact .inr ⟨b, rest, hi, h.1.symm, h.2.symm⟩
  · cases h

theorem accept_some {d d' : Device} {item : OutItem} (h : d.accept item = some d') :
    d.outputAnswers = true ∧ d' = { d with output := d.output ++ [item] } := by
  unfold Device.accept at h
  split at h
  · next ha => exact ⟨ha, by simpa using h.symm⟩
  · cases h

end Sys2Proof.Machine
end

