-- ==== Sys2Proof/Laws/Exec.lean ====
section
/-! SUPPORT. Once for all nineteen instructions: what a handler, and then a step, can do to the state. Invariants are proved from
these, not by unfolding the handlers. -/

namespace Sys2Proof.Machine

/-- What every handler leaves alone: the sizes and the grammar (R24, R25, R6). -/
structure State.Kept (s t : State) : Prop where
  roof : t.roof = s.roof
  bottom : t.bottom = s.bottom
  hasStack : t.hasStack = s.hasStack
  parser : t.dev.parser = s.dev.parser

/-- What a handler that answers a next state did to the stack registers and the image (R49). -/
inductive Effect (s t : State) : Prop where
  /-- It touched neither: every instruction but `store`, `push` and `pop`, and every error. -/
  | quiet (top : t.top = s.top) (size : t.size = s.size) (mem : t.mem = s.mem)
  /-- `store` wrote one cell of the live window (R106, R109). -/
  | stored (a : Nat) (v : Word) (live : s.hasStack = true ∧ 0 < s.size ∧ s.top ≤ a ∧ a ≤ s.bottom)
      (top : t.top = s.top) (size : t.size = s.size) (mem : t.mem = s.mem.write a v)
  /-- `push` wrote the cell that joins the window (R110). -/
  | pushed (v : Word) (room : s.roof + s.size ≤ s.bottom) (top : t.top = s.bottom - s.size)
      (size : t.size = s.size + 1) (mem : t.mem = s.mem.write (s.bottom - s.size) v)
  /-- `pop` zeroed the cell that leaves the window (R111). -/
  | popped (live : 0 < s.size) (exists_top : s.top ≤ s.bottom)
      (top : t.top = if 1 < s.size then s.top + 1 else s.top) (size : t.size = s.size - 1)
      (mem : t.mem = s.mem.write s.top 0)

/-- A commit that touches neither stack registers nor image. -/
theorem effect_of_quiet_commit {c : Commit} {s : State} (hs : c.stackNext = none) (hm : c.memWrite = none) :
    Effect s (commit c s) :=
  .quiet (by simp [hs]) (by simp [hs]) (by simp [hm])

theorem kept_of_commit {c : Commit} {s : State} (hd : ∀ d, c.device = some d → d.parser = s.dev.parser) :
    State.Kept s (commit c s) := by
  refine ⟨rfl, rfl, rfl, ?_⟩
  cases h : c.device with
  | none => simp [h]
  | some d => simpa [h] using hd d h

theorem kept_of_succeed {w : Nat} {c : Commit} {s t : State} (h : succeed w c s = .next t) (hd : c.device = none) :
    State.Kept s t := by
  obtain rfl := succeed_next h
  exact kept_of_commit (by simp [hd])

theorem raise_effect {e : Status} {s t : State} (h : raise e s = .next t) : State.Kept s t ∧ Effect s t := by
  obtain rfl := raise_next h
  exact ⟨kept_of_commit (by simp), effect_of_quiet_commit rfl rfl⟩

theorem succeed_effect {w : Nat} {c : Commit} {s t : State} (h : succeed w c s = .next t) (hd : c.device = none)
    (hs : c.stackNext = none) (hm : c.memWrite = none) : State.Kept s t ∧ Effect s t := by
  refine ⟨kept_of_succeed h hd, ?_⟩
  obtain rfl := succeed_next h
  exact effect_of_quiet_commit hs hm

theorem device_effect {w : Nat} {c : Commit} {s t : State} {d : Device} (h : succeed w c s = .next t)
    (hd : c.device = some d) (hp : d.parser = s.dev.parser) (hs : c.stackNext = none) (hm : c.memWrite = none) :
    State.Kept s t ∧ Effect s t := by
  obtain rfl := succeed_next h
  exact ⟨kept_of_commit (by simp [hd, hp]), effect_of_quiet_commit hs hm⟩

theorem withReg_effect {cell : Word} {s t : State} {k : Reg → StepOutcome} (h : withReg cell s k = .next t)
    (hk : ∀ r, regOperand cell = some r → k r = .next t → State.Kept s t ∧ Effect s t) :
    State.Kept s t ∧ Effect s t := by
  obtain ⟨r, hr, h⟩ | ⟨-, rfl⟩ := withReg_next h
  · exact hk r hr h
  · exact raise_effect rfl

theorem execDiv_effect {reg : Word} {s t : State} (h : execDiv reg s = .next t) : State.Kept s t ∧ Effect s t :=
  withReg_effect h fun r _ h => by
    split at h
    · exact raise_effect h
    · exact succeed_effect h rfl rfl rfl

theorem execLoop_effect {index : Word} {s t : State} (h : execLoop index s = .next t) :
    State.Kept s t ∧ Effect s t := by
  unfold execLoop at h
  split at h
  · exact succeed_effect h rfl rfl rfl
  · cases h
    exact ⟨kept_of_commit (by simp), effect_of_quiet_commit rfl rfl⟩

theorem execSwap_effect {reg1 reg2 : Word} {s t : State} (h : execSwap reg1 reg2 s = .next t) :
    State.Kept s t ∧ Effect s t :=
  withReg_effect h fun _ _ h => withReg_effect h fun _ _ h => succeed_effect h rfl rfl rfl

theorem execLoad_effect {reg num : Word} {s t : State} (h : execLoad reg num s = .next t) :
    State.Kept s t ∧ Effect s t :=
  withReg_effect h fun r _ h => by
    obtain ⟨-, h⟩ | ⟨-, rfl⟩ := withStack_next h
    · exact succeed_effect (withCell_next h).2 rfl rfl rfl
    · exact raise_effect rfl

/-- The frame address of a valid access is a cell of the live window (R106). -/
theorem frameAddr_live {s : State} {num : Word}
    (h : frameOk s (translator s num).dPlusNum (translator s num).frameAddr = true) :
    s.hasStack = true ∧ 0 < s.size ∧ s.top ≤ (translator s num).frameAddr.toNat ∧
      (translator s num).frameAddr.toNat ≤ s.bottom := by
  obtain ⟨h1, h2, h3, h4⟩ := frameOk_iff.mp h
  simp only [translator] at h3 h4 ⊢
  refine ⟨h1, h2, ?_, ?_⟩ <;> omega

theorem execStore_effect {reg num : Word} {s t : State} (h : execStore reg num s = .next t) :
    State.Kept s t ∧ Effect s t :=
  withReg_effect h fun r _ h => by
    obtain ⟨hok, h⟩ | ⟨-, rfl⟩ := withStack_next h
    · have h := (withCell_next h).2
      refine ⟨kept_of_succeed h rfl, ?_⟩
      obtain rfl := succeed_next h
      exact .stored _ _ (frameAddr_live hok) rfl rfl rfl
    · exact raise_effect rfl

theorem execPush_effect {reg : Word} {s t : State} (h : execPush reg s = .next t) : State.Kept s t ∧ Effect s t :=
  withReg_effect h fun r _ h => by
    obtain ⟨hok, h⟩ | ⟨-, rfl⟩ := withStack_next h
    · have h := (withCell_next h).2
      refine ⟨kept_of_succeed h rfl, ?_⟩
      obtain rfl := succeed_next h
      have hroom : s.roof + s.size ≤ s.bottom := by
        simp only [stackCheck, decide_eq_true_eq] at hok
        omega
      have haddr : (translator s 0).pushAddr.toNat = s.bottom - s.size := by
        simp only [translator]
        omega
      refine .pushed (s.regs.get r) hroom ?_ rfl ?_
      · simp only [stackCheck, commit_top, Option.map_some, Option.getD_some]
        omega
      · simp only [commit_mem, Memory.port_some, haddr]
    · exact raise_effect rfl

theorem execPop_effect {reg : Word} {s t : State} (h : execPop reg s = .next t) : State.Kept s t ∧ Effect s t :=
  withReg_effect h fun r _ h => by
    obtain ⟨hok, h⟩ | ⟨-, rfl⟩ := withStack_next h
    · obtain ⟨⟨-, hlt⟩, h⟩ := withCell_next h
      refine ⟨kept_of_succeed h rfl, ?_⟩
      obtain rfl := succeed_next h
      simp only [stackCheck, decide_eq_true_eq] at hok
      simp only [State.memCells] at hlt
      exact .popped (by omega) (by omega) rfl rfl (by simp)
    · exact raise_effect rfl

theorem execIn_effect {reg : Word} {s t : State} (h : execIn reg s = .next t) : State.Kept s t ∧ Effect s t :=
  withReg_effect h fun r _ h => by
    obtain ⟨⟨o, d⟩, ha, h⟩ := transact_next h
    obtain ⟨-, -, rfl⟩ := inToken_some ha
    dsimp only at h
    split at h
    · exact device_effect h rfl rfl rfl rfl
    · exact device_effect h rfl rfl rfl rfl
    · obtain rfl := raise_next h
      exact ⟨⟨rfl, rfl, rfl, rfl⟩, .quiet rfl rfl rfl⟩

theorem execGet_effect {reg : Word} {s t : State} (h : execGet reg s = .next t) : State.Kept s t ∧ Effect s t :=
  withReg_effect h fun r _ h => by
    obtain ⟨⟨o, d⟩, ha, h⟩ := transact_next h
    have hp : d.parser = s.dev.parser := by
      obtain ⟨-, ⟨-, -, rfl⟩ | ⟨-, -, -, -, rfl⟩⟩ := inByte_some ha <;> rfl
    dsimp only at h
    split at h
    · exact device_effect h rfl hp rfl rfl
    · exact device_effect h rfl hp rfl rfl

theorem execOut_effect {reg : Word} {s t : State} (h : execOut reg s = .next t) : State.Kept s t ∧ Effect s t :=
  withReg_effect h fun r _ h => by
    obtain ⟨d, ha, h⟩ := transact_next h
    obtain ⟨-, rfl⟩ := accept_some ha
    exact device_effect h rfl rfl rfl rfl

theorem execPut_effect {reg : Word} {s t : State} (h : execPut reg s = .next t) : State.Kept s t ∧ Effect s t :=
  withReg_effect h fun r _ h => by
    split at h
    · obtain ⟨d, ha, h⟩ := transact_next h
      obtain ⟨-, rfl⟩ := accept_some ha
      exact device_effect h rfl rfl rfl rfl
    · exact raise_effect h

/-- What any instruction does to the sizes, the stack registers and the image, when it answers a next state. -/
theorem exec_effect {i : Instr} {s t : State} (h : exec i s = .next t) : State.Kept s t ∧ Effect s t := by
  cases i with
  | nop => exact succeed_effect h rfl rfl rfl
  | halt => exact succeed_effect h rfl rfl rfl
  | add => exact withReg_effect h fun _ _ h => succeed_effect h rfl rfl rfl
  | sub => exact withReg_effect h fun _ _ h => succeed_effect h rfl rfl rfl
  | mul => exact withReg_effect h fun _ _ h => succeed_effect h rfl rfl rfl
  | div => exact execDiv_effect h
  | inc => exact withReg_effect h fun _ _ h => succeed_effect h rfl rfl rfl
  | dec => exact withReg_effect h fun _ _ h => succeed_effect h rfl rfl rfl
  | loop => exact execLoop_effect h
  | movr => exact withReg_effect h fun _ _ h => succeed_effect h rfl rfl rfl
  | load => exact execLoad_effect h
  | store => exact execStore_effect h
  | inp => exact execIn_effect h
  | get => exact execGet_effect h
  | out => exact execOut_effect h
  | put => exact execPut_effect h
  | swap => exact execSwap_effect h
  | push => exact execPush_effect h
  | pop => exact execPop_effect h

/-! ### The step -/

/-- What a step that answers a next state did: nothing on a stopped machine, a raised error of the fetch, or its handler. -/
theorem step_next {s t : State} (h : step s = .next t) :
    (fetchDecode s = .stopped ∧ t = s) ∨
      (∃ e, fetchDecode s = .raised e ∧ t = { s with status := e }) ∨
      ∃ i, fetchDecode s = .execute i ∧ exec i s = .next t := by
  unfold step at h
  split at h
  · next hf => exact .inl ⟨hf, by simpa [stoppedStep] using h.symm⟩
  · next e hf => exact .inr (.inl ⟨e, hf, by simpa [raise_eq] using h.symm⟩)
  · cases h
  · next i hf => exact .inr (.inr ⟨i, hf, h⟩)

/-- What any step does to the sizes, the stack registers and the image. -/
theorem step_effect {s t : State} (h : step s = .next t) : State.Kept s t ∧ Effect s t := by
  obtain ⟨-, rfl⟩ | ⟨e, -, rfl⟩ | ⟨i, -, h⟩ := step_next h
  · exact ⟨⟨rfl, rfl, rfl, rfl⟩, .quiet rfl rfl rfl⟩
  · exact ⟨⟨rfl, rfl, rfl, rfl⟩, .quiet rfl rfl rfl⟩
  · exact exec_effect h

end Sys2Proof.Machine
end

