-- ==== Sys2Proof/Laws/Fetch.lean ====
section
/-! SUPPORT. What `fetch_decode_unit` answers, case by case, and what a step is in each case. -/

namespace Sys2Proof.Machine

/-- A stopped machine (R79). -/
theorem fetchDecode_stopped {s : State} (h : s.status ≠ .ok) : fetchDecode s = .stopped := by
  simp [fetchDecode, h]

theorem step_of_stopped {s : State} (h : s.status ≠ .ok) : step s = .next s := by
  simp [step, fetchDecode_stopped h, stoppedStep]

/-- The fetch bound (R80). -/
theorem fetchDecode_outside {s : State} (h : s.status = .ok) (hr : ¬ s.InRegion) :
    fetchDecode s = .raised .invalidAddress := by
  have h1 : ∀ num, (translator s num).fetchOk = false := fun _ => decide_eq_false hr
  simp [fetchDecode, h, h1]

/-- Past the fetch bound the opcode cell decides (R81, R82, R83). -/
theorem fetchDecode_inside {s : State} (h : s.status = .ok) (hr : s.InRegion) (hc : s.ip.toInt < s.memCells) :
    fetchDecode s =
      match formatOf (s.mem.read s.ip.toInt.toNat) with
      | none => .raised .illegalInstruction
      | some f =>
        if !operandsOk s f.width then .raised .invalidAddress
        else .execute (f.build (operandCell s f.width 1) (operandCell s f.width 2)) := by
  have h1 : ∀ num, (translator s num).fetchOk = true := fun _ => decide_eq_true hr
  have h2 : s.hasCell s.ip.toInt = true := hasCell_iff.mpr ⟨hr.1, hc⟩
  cases hf : formatOf (s.mem.read s.ip.toInt.toNat) <;> simp [fetchDecode, h, h1, h2, hf]

/-- The operand check is R82's bound on the last operand cell. -/
theorem operandsOk_iff {s : State} {w : Nat} (h1 : 1 ≤ w) (h3 : w ≤ 3) (hc : s.ip.toInt < s.memCells) :
    operandsOk s w = true ↔ s.ip.toInt + w - 1 < s.memCells := by
  obtain rfl | rfl | rfl : w = 1 ∨ w = 2 ∨ w = 3 := by omega
  · simp only [operandsOk, true_iff]; push_cast; omega
  · simp only [operandsOk, translator, decide_eq_true_eq]; push_cast; omega
  · simp only [operandsOk, translator, decide_eq_true_eq]; push_cast; omega

/-- What a step that executes a handler found: status OK, `ip` in the instruction region and in the image, and the
instruction's own cells there. -/
theorem fetchDecode_execute {s : State} {i : Instr} (h : fetchDecode s = .execute i) :
    s.status = .ok ∧ s.InRegion ∧ s.ip.toInt < s.memCells ∧ s.Holds i := by
  have hs : s.status = .ok := by
    by_contra hn
    rw [fetchDecode_stopped hn] at h
    cases h
  have hr : s.InRegion := by
    by_contra hn
    rw [fetchDecode_outside hs hn] at h
    cases h
  have hc : s.ip.toInt < s.memCells := by
    by_contra hn
    have h1 : ∀ num, (translator s num).fetchOk = true := fun _ => decide_eq_true hr
    have h2 : s.hasCell s.ip.toInt = false := by
      rw [← Bool.not_eq_true, hasCell_iff]
      exact fun hc => hn hc.2
    simp [fetchDecode, hs, h1, h2] at h
  refine ⟨hs, hr, hc, ?_⟩
  rw [fetchDecode_inside hs hr hc] at h
  split at h
  · cases h
  · next f hf =>
    split at h
    · cases h
    · next hok =>
      cases h
      obtain ⟨h1, h3⟩ := formatOf_width_pos hf
      have hok := (operandsOk_iff h1 h3 hc).mp (by simpa using hok)
      have henc := encode_build hf (operandCell s f.width 1) (operandCell s f.width 2)
      have hpos := hr.1
      have hwidth : Instr.width (f.build (operandCell s f.width 1) (operandCell s f.width 2)) = f.width := by
        rw [Instr.width, henc, List.length_take]
        simp only [List.length_cons, List.length_nil]
        omega
      intro k hk
      rw [hwidth] at hk
      refine ⟨by omega, ?_⟩
      rw [henc]
      have hk3 : k = 0 ∨ k = 1 ∨ k = 2 := by omega
      have hadd : ∀ n : Nat, (s.ip.toInt + (n : Int)).toNat = s.ip.toInt.toNat + n := fun n => by omega
      rcases hk3 with rfl | rfl | rfl
      · simp [State.cellAt, List.getD, hk]
      · simp [State.cellAt, List.getD, operandCell, hk, ← hadd 1]
      · simp [State.cellAt, List.getD, operandCell, hk, ← hadd 2]

/-- Where an instruction's cells stand at `ip`, a step executes it (R78, R83). -/
theorem fetchDecode_holds {s : State} {i : Instr} (hs : s.status = .ok) (hr : s.InRegion) (hi : s.Holds i) :
    fetchDecode s = .execute i := by
  obtain ⟨opc, f, ops, henc, hf, hw, hb⟩ := encode_shape i
  have hwidth : i.width = f.width := by rw [Instr.width, henc, hw]; rfl
  obtain ⟨h1, h3⟩ := formatOf_width_pos hf
  have hpos := hr.1
  have hcell : ∀ k, k < f.width → s.ip.toInt.toNat + k < s.memCells ∧ s.cellAt k = (opc :: ops).getD k 0 :=
    fun k hk => by rw [← henc]; exact hi k (by omega)
  have h0 := hcell 0 (by omega)
  have hc : s.ip.toInt < s.memCells := by omega
  have hopc : s.mem.read s.ip.toInt.toNat = opc := by simpa [State.cellAt] using h0.2
  have hok : operandsOk s f.width = true := by
    rw [operandsOk_iff h1 h3 hc]
    have := (hcell (f.width - 1) (by omega)).1
    omega
  have hop : ∀ k, 1 ≤ k → k ≤ 2 → operandCell s f.width k = ops.getD (k - 1) 0 := by
    intro k hk1 hk2
    unfold operandCell
    split
    · next hk =>
      have hadd : (s.ip.toInt + (k : Int)).toNat = s.ip.toInt.toNat + k := by omega
      have := (hcell k hk).2
      rw [hadd, ← State.cellAt, this]
      obtain ⟨j, rfl⟩ : ∃ j, k = j + 1 := ⟨k - 1, by omega⟩
      rfl
    · next hk =>
      have : ops.length ≤ k - 1 := by omega
      simp [List.getD, List.getElem?_eq_none this]
  rw [fetchDecode_inside hs hr hc, hopc, hf]
  simp only [hok, Bool.not_true, Bool.false_eq_true, if_false]
  rw [hop 1 (by omega) (by omega), hop 2 (by omega) (by omega)]
  exact congrArg _ hb

theorem step_of_execute {s : State} {i : Instr} (h : fetchDecode s = .execute i) : step s = exec i s := by
  simp [step, h]

theorem step_of_raised {s : State} {e : Status} (h : fetchDecode s = .raised e) :
    step s = .next { s with status := e } := by
  simp [step, h, raise_eq]

end Sys2Proof.Machine
end

