-- ==== Sys2Proof/Laws/PerInstr.lean ====
section
/-! SUPPORT. Facts of every instruction as syntax, one lemma per constructor. -/

namespace Sys2Proof.Laws

namespace CellRoundTrip

/-- An instruction's cells, whatever cells follow them, decode to it and leave what follows. -/
def Statement (i : Instr) : Prop := ∀ rest, decodeCells (encode i ++ rest) = .ok (i, rest)

theorem nop : Statement .nop := fun _ => rfl
theorem halt : Statement .halt := fun _ => rfl
theorem add (reg : Word) : Statement (.add reg) := fun _ => rfl
theorem sub (reg : Word) : Statement (.sub reg) := fun _ => rfl
theorem mul (reg : Word) : Statement (.mul reg) := fun _ => rfl
theorem div (reg : Word) : Statement (.div reg) := fun _ => rfl
theorem inc (reg : Word) : Statement (.inc reg) := fun _ => rfl
theorem dec (reg : Word) : Statement (.dec reg) := fun _ => rfl
theorem loop (index : Word) : Statement (.loop index) := fun _ => rfl
theorem movr (reg num : Word) : Statement (.movr reg num) := fun _ => rfl
theorem load (reg num : Word) : Statement (.load reg num) := fun _ => rfl
theorem store (reg num : Word) : Statement (.store reg num) := fun _ => rfl
theorem inp (reg : Word) : Statement (.inp reg) := fun _ => rfl
theorem get (reg : Word) : Statement (.get reg) := fun _ => rfl
theorem out (reg : Word) : Statement (.out reg) := fun _ => rfl
theorem put (reg : Word) : Statement (.put reg) := fun _ => rfl
theorem swap (reg1 reg2 : Word) : Statement (.swap reg1 reg2) := fun _ => rfl
theorem push (reg : Word) : Statement (.push reg) := fun _ => rfl
theorem pop (reg : Word) : Statement (.pop reg) := fun _ => rfl

end CellRoundTrip

end Sys2Proof.Laws
end

