-- ==== Sys2Proof/Tests/Slice0.lean ====
section
/-! SUPPORT. Tests with results taken from spec/95_test_vectors.md (the vector's id in each docstring), the decoding of every
constructor from a word written out by 30_encoding.md R63 and R64, ill-formed terms that WellFormed refuses, and for every
obligation with hypotheses a state and operands that meet them. -/

namespace Sys2Proof.Machine.Tests

/-! ### Helpers -/

/-- The outcome is a next state with this property. -/
def goes (o : StepOutcome) (p : State → Bool) : Bool :=
  match o with
  | .next t => p t
  | _ => false

/-- The outcome is this fault. -/
def faults (o : StepOutcome) (f : Fault) : Bool :=
  match o with
  | .fault g => decide (g = f)
  | _ => false

/-- A machine as a vector gives it: 1024 cells, the program from cell 0 on, `pre` pushed in this order, and the registers. -/
def machine (prog : List Word) (cap : Nat) (pre : List Word) (regs : Regs) : State :=
  { regs := regs, ip := 0, status := .ok, top := 1023 - (pre.length - 1), size := pre.length, roof := 1024 - cap
    bottom := 1023, hasStack := decide (0 < cap)
    mem := Memory.ofCells 0 prog ++ Memory.ofCells (1024 - pre.length) pre.reverse, dev := Device.reset }

/-- The same machine with bytes to read. -/
def reading (input : List Byte) (s : State) : State := { s with dev := { s.dev with input := input } }

def zeros : Regs := { a := 0, b := 0, c := 0, d := 0 }

/-! ### Decoding: a word from the spec for every constructor, bit 0 the least significant of the first cell -/

theorem test_decode_control :
    decodeTableWord 32 0x00000000 = some .nop ∧ decodeTableWord 32 0x00000001 = some .halt ∧
    decodeTableWord 64 0xFFFFFFFF00000008 = some (.loop (-1)) := by decide

theorem test_decode_arithmetic :
    decodeTableWord 64 0x0000000100000002 = some (.add 1) ∧ decodeTableWord 64 0x0000000200000003 = some (.sub 2) ∧
    decodeTableWord 64 0x0000000300000004 = some (.mul 3) ∧ decodeTableWord 64 0x0000000100000005 = some (.div 1) ∧
    decodeTableWord 64 0x0000000200000006 = some (.inc 2) ∧ decodeTableWord 64 0x0000000300000007 = some (.dec 3) := by
  decide

theorem test_decode_moves :
    decodeTableWord 96 0x800000000000000300000009 = some (.movr 3 (BitVec.ofInt 32 (-2147483648))) ∧
    decodeTableWord 96 0x000000030000000100000010 = some (.swap 1 3) := by decide

theorem test_decode_stack :
    decodeTableWord 96 0x00000001000000020000000A = some (.load 2 1) ∧
    decodeTableWord 96 0xFFFFFFFF000000000000000B = some (.store 0 (-1)) ∧
    decodeTableWord 64 0x0000000200000011 = some (.push 2) ∧ decodeTableWord 64 0x0000000300000012 = some (.pop 3) := by
  decide

theorem test_decode_io :
    decodeTableWord 64 0x000000010000000C = some (.inp 1) ∧ decodeTableWord 64 0x000000020000000D = some (.get 2) ∧
    decodeTableWord 64 0x000000030000000E = some (.out 3) ∧ decodeTableWord 64 0x000000010000000F = some (.put 1) := by
  decide

/-- R71: 19, −1 and an opcode's number in another byte are no opcodes; R70: an ill-formed instruction decodes. -/
theorem test_decode_refuses :
    decodeTableWord 32 19 = none ∧ decodeTableWord 32 0xFFFFFFFF = none ∧ decodeTableWord 32 0x02000000 = none ∧
    decodeTableWord 64 0x0000000400000002 = some (.add 4) := by decide

/-- A table word stored where the next step fetches is what that step runs: `movr A,5` (R76). -/
theorem test_withFetchWord :
    goes (step (State.reset.withFetchWord 96 0x000000050000000000000009)) fun t =>
      decide (t.regs.a = 5 ∧ t.ip = 3 ∧ t.status = .ok) := by decide

/-! ### WellFormed refuses -/

theorem test_illformed_four :
    [Instr.add 4, .sub 4, .mul 4, .div 4, .inc 4, .dec 4, .movr 4 0, .load 4 0, .store 4 0, .inp 4, .get 4, .out 4, .put 4,
      .push 4, .pop 4].all (fun i => !i.wellFormed) = true := by decide

theorem test_illformed_negative :
    [Instr.add (-1), .sub (-1), .mul (-1), .div (-1), .inc (-1), .dec (-1), .movr (-1) 0, .load (-1) 0, .store (-1) 0,
      .inp (-1), .get (-1), .out (-1), .put (-1), .push (-1), .pop (-1)].all (fun i => !i.wellFormed) = true := by decide

theorem test_illformed_swap :
    Instr.wellFormed (.swap 4 0) = false ∧ Instr.wellFormed (.swap 0 4) = false ∧
    Instr.wellFormed (.swap 0 3) = true := by decide

/-! ### One step each -/

/-- AR2. -/
theorem test_add_wraps :
    goes (step (machine [2, 1] 0 [] { zeros with a := 2147483647, b := 1 })) fun t =>
      decide (t.regs.a.toInt = -2147483648 ∧ t.regs.b = 1 ∧ t.ip = 2) := by decide

/-- AR1. -/
theorem test_add_to_itself :
    goes (step (machine [2, 0] 0 [] { zeros with a := 2147483647 })) fun t => decide (t.regs.a.toInt = -2) := by decide

/-- AR4. -/
theorem test_sub_wraps :
    goes (step (machine [3, 1] 0 [] { zeros with a := BitVec.ofInt 32 (-2147483648), b := 1 })) fun t =>
      decide (t.regs.a.toInt = 2147483647 ∧ t.ip = 2) := by decide

/-- AR5. -/
theorem test_sub_from_zero :
    goes (step (machine [3, 2] 0 [] { zeros with c := BitVec.ofInt 32 (-2147483648) })) fun t =>
      decide (t.regs.a.toInt = -2147483648) := by decide

/-- AR7. -/
theorem test_mul_keeps_the_low_cell :
    goes (step (machine [4, 1] 0 [] { zeros with a := 65536, b := 65536 })) fun t =>
      decide (t.regs.a = 0 ∧ t.regs.b = 65536) := by decide

/-- AR8. -/
theorem test_mul_most_negative :
    goes (step (machine [4, 3] 0 [] { zeros with a := BitVec.ofInt 32 (-2147483648), d := -1 })) fun t =>
      decide (t.regs.a.toInt = -2147483648) := by decide

/-- AR10: the quotient is truncated toward zero. -/
theorem test_div_truncates :
    goes (step (machine [5, 1] 0 [] { zeros with a := -7, b := 2 })) fun t =>
      decide (t.regs.a.toInt = -3 ∧ t.ip = 2) := by decide

/-- AR13. -/
theorem test_div_most_negative :
    goes (step (machine [5, 3] 0 [] { zeros with a := BitVec.ofInt 32 (-2147483648), d := -1 })) fun t =>
      decide (t.regs.a.toInt = -2147483648 ∧ t.status = .ok) := by decide

/-- AR16. -/
theorem test_inc_wraps :
    goes (step (machine [6, 1] 0 [] { zeros with b := 2147483647 })) fun t =>
      decide (t.regs.b.toInt = -2147483648 ∧ t.regs.a = 0) := by decide

/-- AR17. -/
theorem test_dec_wraps :
    goes (step (machine [7, 2] 0 [] { zeros with c := BitVec.ofInt 32 (-2147483648) })) fun t =>
      decide (t.regs.c.toInt = 2147483647 ∧ t.ip = 2) := by decide

/-- CF1. -/
theorem test_nop : goes (step (machine [0] 0 [] zeros)) fun t => decide (t.ip = 1 ∧ stepReturns t = true) := by decide

/-- CF2. -/
theorem test_halt :
    goes (step (machine [1] 0 [] { zeros with a := 3 })) fun t =>
      decide (t.status = .halted ∧ t.ip = 1 ∧ t.regs.a = 3 ∧ stepReturns t = false) := by decide

/-- CF4. -/
theorem test_loop_taken :
    goes (step { machine [0, 8, 0] 0 [] { zeros with c := -1 } with ip := 1 }) fun t =>
      decide (t.ip = 0 ∧ t.regs.c.toInt = -1) := by decide

/-- CF3. -/
theorem test_loop_falls_through : goes (step (machine [8, 7] 0 [] zeros)) fun t => decide (t.ip = 2) := by decide

/-- DM1. -/
theorem test_movr :
    goes (step (machine [9, 3, BitVec.ofInt 32 (-2147483648)] 0 [] zeros)) fun t =>
      decide (t.regs.d.toInt = -2147483648 ∧ t.ip = 3) := by decide

/-- DM3. -/
theorem test_swap :
    goes (step (machine [16, 0, 3] 0 [] { zeros with a := 1, d := 9 })) fun t =>
      decide (t.regs.a = 9 ∧ t.regs.d = 1 ∧ t.ip = 3) := by decide

/-- DM5. -/
theorem test_swap_second_invalid :
    goes (step (machine [16, 0, 7] 0 [] { a := 1, b := 2, c := 3, d := 4 })) fun t =>
      decide (t.status = .illegalOperand ∧ t.regs = { a := 1, b := 2, c := 3, d := 4 } ∧ t.ip = 0) := by decide

/-- ST1. -/
theorem test_load_bottom :
    goes (step (machine [10, 2, 1] 4 [30, 40] zeros)) fun t => decide (t.regs.c = 30 ∧ t.ip = 3) := by decide

/-- ST5: the exact sum is −2^32. -/
theorem test_load_exact_sum :
    goes (step (machine [10, 2, BitVec.ofInt 32 (-2147483648)] 4 [30, 40]
      { zeros with d := BitVec.ofInt 32 (-2147483648) })) fun t =>
      decide (t.status = .invalidStackOperation ∧ t.regs.c = 0) := by decide

/-- ST7. -/
theorem test_store :
    goes (step (machine [11, 0, 1] 4 [30, 40] { zeros with a := 7 })) fun t =>
      decide (t.mem.read 1023 = 7 ∧ t.mem.read 1022 = 40 ∧ t.size = 2) := by decide

/-- ST6. -/
theorem test_store_empty_stack :
    goes (step (machine [11, 0, 0] 4 [] { zeros with a := 7 })) fun t =>
      decide (t.status = .invalidStackOperation ∧ t.mem.read 1023 = 0) := by decide

/-- ST10. -/
theorem test_push_first :
    goes (step (machine [17, 0] 4 [] { zeros with a := 7 })) fun t =>
      decide (t.mem.read 1023 = 7 ∧ t.top = 1023 ∧ t.size = 1) := by decide

/-- ST11. -/
theorem test_push_full :
    goes (step (machine [17, 0] 2 [1, 2] { zeros with a := 5 })) fun t =>
      decide (t.status = .invalidStackOperation ∧ t.size = 2 ∧ t.top = 1022 ∧ t.ip = 0) := by decide

/-- ST12. -/
theorem test_pop :
    goes (step (machine [18, 3] 4 [30, 40] zeros)) fun t =>
      decide (t.regs.d = 40 ∧ t.mem.read 1022 = 0 ∧ t.mem.read 1023 = 30 ∧ t.top = 1023 ∧ t.size = 1) := by decide

/-- ST13. -/
theorem test_pop_last :
    goes (step (machine [18, 0] 4 [30] zeros)) fun t =>
      decide (t.regs.a = 30 ∧ t.mem.read 1023 = 0 ∧ t.top = 1023 ∧ t.size = 0) := by decide

/-- IO1: `"  -17\n"`. -/
theorem test_in_value :
    goes (step (reading [0x20, 0x20, 0x2D, 0x31, 0x37, 0x0A] (machine [12, 1] 0 [] zeros))) fun t =>
      decide (t.regs.b.toInt = -17 ∧ t.dev.input = [0x0A] ∧ t.ip = 2) := by decide

/-- IO3: `"2147483648 9"`. -/
theorem test_in_too_large :
    goes (step (reading [0x32, 0x31, 0x34, 0x37, 0x34, 0x38, 0x33, 0x36, 0x34, 0x38, 0x20, 0x39]
      (machine [12, 1] 0 [] zeros))) fun t =>
      decide (t.status = .ioError ∧ t.regs.b = 0 ∧ t.ip = 0 ∧ t.dev.input = [0x20, 0x39]) := by decide

/-- IO7. -/
theorem test_get_zero_extends :
    goes (step (reading [0xFF] (machine [13, 0] 0 [] zeros))) fun t =>
      decide (t.regs.a.toInt = 255 ∧ t.dev.input = []) := by decide

/-- IO9. -/
theorem test_get_end_into_C :
    goes (step (machine [13, 2] 0 [] { zeros with c := 5 })) fun t =>
      decide (t.regs.c.toInt = -1 ∧ t.status = .ok ∧ t.ip = 2) := by decide

/-- IO10: `"4294967295"`. -/
theorem test_out_is_unsigned :
    goes (step (machine [14, 0] 0 [] { zeros with a := -1 })) fun t =>
      decide (t.dev.outputBytes = [0x34, 0x32, 0x39, 0x34, 0x39, 0x36, 0x37, 0x32, 0x39, 0x35]) := by decide

/-- IO12: `"0"`. -/
theorem test_out_zero :
    goes (step (machine [14, 0] 0 [] zeros)) fun t => decide (t.dev.outputBytes = [0x30] ∧ t.ip = 2) := by decide

/-- IO16. -/
theorem test_put_255 :
    goes (step (machine [15, 0] 0 [] { zeros with a := 255 })) fun t =>
      decide (t.dev.outputBytes = [0xFF] ∧ t.status = .ok) := by decide

/-- IO13. -/
theorem test_put_256 :
    goes (step (machine [15, 0] 0 [] { zeros with a := 256 })) fun t =>
      decide (t.status = .illegalOperand ∧ t.dev.output = []) := by decide

/-! ### The common step -/

/-- V8: a `movr` whose last cell would be 1024. -/
def lastCells : State := { machine [] 1 [] { zeros with c := 1 } with ip := 1022, mem := [(1022, 9)] }

theorem test_operand_outside_the_image :
    goes (step lastCells) fun t => decide (t.status = .invalidAddress ∧ t.ip = 1022) := by decide

/-- V9: an `inc` whose operand is the stack cell 1023. -/
theorem test_operand_in_the_stack_region :
    goes (step { lastCells with mem := [(1022, 6)] }) fun t => decide (t.regs.a = 1 ∧ t.ip = 1024 ∧ t.status = .ok) := by
  decide

/-- V10 and V12: the register operand is checked before the instruction's own check and before any input is read. -/
theorem test_register_check_comes_first :
    (goes (step (machine [5, 9] 0 [] { zeros with a := 5 })) fun t => decide (t.status = .illegalOperand)) ∧
    goes (step (reading [0x78] (machine [12, 4] 0 [] zeros))) fun t =>
      decide (t.status = .illegalOperand ∧ t.dev.input = [0x78]) := by decide

/-! ### Machines that satisfy the invariant -/

/-- The invariant of a state whose listed cells are few. -/
theorem inv_of {s : State}
    (h : (s.memCells % Config.blockCells = 0 ∧ s.memCells ≤ Config.maxMemCells ∧ s.roof ≤ s.memCells) ∧
      (s.hasStack = true ↔ 0 < s.stackCap) ∧ (s.size ≤ s.stackCap ∧ s.top = s.bottom - (s.size - 1)) ∧ s.mem.wf ∧
      (∀ e ∈ s.mem, e.1 < s.memCells) ∧
      ∀ e ∈ s.mem, e.1 < s.roof ∨ s.bottom < e.1 ∨ (1 ≤ s.size ∧ s.top ≤ e.1)) : s.Inv := by
  obtain ⟨⟨h1, h2, h3⟩, h4, ⟨h5, h6⟩, h7, h8, h9⟩ := h
  refine ⟨⟨h1, h2, h3, h4⟩, ⟨h5, h6⟩, ⟨h7, h8, fun a ha => ?_⟩⟩
  by_contra hn
  obtain ⟨e, he, rfl⟩ := Memory.exists_mem_of_read_ne_zero hn
  obtain ⟨v1, v2, v3⟩ := ha
  obtain h | h | h := h9 e he
  · omega
  · omega
  · exact v3 h

/-- A full stack of two cells, `nop` at `ip`. -/
def two : State := machine [] 2 [30, 40] zeros

/-- One cell of two, `push A` at `ip`. -/
def half : State := machine [17, 0] 2 [30] { zeros with a := 7 }

/-- An empty stack of one cell. -/
def vacantOne : State := machine [] 1 [] zeros

/-- No stack. -/
def stackless : State := machine [9, 0, 5, 1] 0 [] { zeros with b := 1 }

theorem two_inv : two.Inv := inv_of (by decide)
theorem half_inv : half.Inv := inv_of (by decide)
theorem vacantOne_inv : vacantOne.Inv := inv_of (by decide)
theorem stackless_inv : stackless.Inv := inv_of (by decide)

/-- The state after `push A`. -/
theorem half_step : step half = .next { half with
    ip := 2, top := 1022, size := 2, mem := [(0, 17), (1022, 7), (1023, 30)] } := rfl

/-! ### The hypotheses of the obligations are met -/

/-- Every statement about an invalid register operand, at both boundaries. -/
theorem witness_invalid_register :
    InvalidRegCell 4 ∧ InvalidRegCell (-1) ∧ (4 : Word) ∈ (Instr.swap 0 4).regOperands ∧
    (-1 : Word) ∈ (Instr.pop (-1)).regOperands ∧ Reg.index .D = 3 ∧ ¬ InvalidRegCell 3 := by decide

/-- StatusIsStickyUntilReset. -/
theorem witness_status_is_sticky :
    let s := { two with status := .divByZero }
    s.status ≠ .ok ∧ HostMove.step ≠ .reset ∧ s.move .step = .next s ∧ HostMove.setRegister 3 9 ≠ .reset ∧
    s.move (.setRegister 3 9) = .next { s with regs := { zeros with d := 9 } } :=
  ⟨by decide, nofun, rfl, nofun, rfl⟩

/-- DecodedBytesAreTheEncoding: a decoded instruction with a cell left over. -/
theorem witness_decoded_bytes :
    decodeBytes [8, 0, 0, 0, 0xFF, 0xFF, 0xFF, 0xFF, 1, 0, 0, 0] = .ok (.loop (-1), [1]) := by decide

/-- IllegalOpcodesAreThoseOutsideTheMap and the third clause of ErrorPrecedence: V1 and V2. -/
theorem witness_illegal_opcode :
    let s := machine [19] 0 [] zeros
    let u := machine [-1] 0 [] zeros
    (s.status = .ok ∧ s.InRegion ∧ s.ip.toInt < s.memCells ∧ ¬ (0 ≤ (s.cellAt 0).toInt ∧ (s.cellAt 0).toInt ≤ 18)) ∧
    (u.status = .ok ∧ u.InRegion ∧ u.ip.toInt < u.memCells ∧ ¬ (0 ≤ (u.cellAt 0).toInt ∧ (u.cellAt 0).toInt ≤ 18)) ∧
    (0 ≤ (18 : Word).toInt ∧ (18 : Word).toInt ≤ 18) := by decide

/-- DivTruncatesOrRaisesDivByZero. -/
theorem witness_div : half.regs.get .A ≠ 0 ∧ half.regs.get .B = 0 ∧ half.status = .ok := by decide

/-- LoopBranchesWhileCIsNotZero: both ways, and the targets −1 and ROOF. -/
theorem witness_loop :
    lastCells.regs.c.toInt ≠ 0 ∧ two.regs.c.toInt = 0 ∧ two.status = .ok ∧
    ¬ (0 ≤ (-1 : Word).toInt ∧ (-1 : Word).toInt < (two.roof : Int)) ∧
    ¬ (0 ≤ (1022 : Word).toInt ∧ (1022 : Word).toInt < (two.roof : Int)) := by decide

/-- LoadReadsTheFrameCell, StoreWritesTheFrameCell and FrameAccessMeetsTheLiveWindow: the first and the last displacement that
are valid, and those beside them (ST1 to ST4). -/
theorem witness_frame :
    two.FrameValid 0 ∧ two.FrameValid 1 ∧ ¬ two.FrameValid (-1) ∧ ¬ two.FrameValid 2 ∧ ¬ vacantOne.FrameValid 0 ∧
    two.mem.wf ∧ 1023 ≠ ((two.top : Int) + two.regs.d.toInt + (0 : Word).toInt).toNat ∧
    0 < two.size ∧ two.regs.d = 0 ∧ two.top ≤ 1022 ∧ 1023 ≤ two.bottom := by decide

/-- PushWritesTheNewHead: one cell of room, none, and no stack. -/
theorem witness_push :
    (half.roof : Int) ≤ (half.bottom : Int) - half.size ∧ half.mem.wf ∧
    (two.bottom : Int) - two.size < (two.roof : Int) ∧ (stackless.bottom : Int) - stackless.size < (stackless.roof : Int) ∧
    1023 ≠ ((half.bottom : Int) - half.size).toNat := by decide

/-- PopReadsAndZeroesTheHead: two cells, one, none; PopOutsideTheImageFaults: the head one beyond the image. -/
theorem witness_pop :
    (0 < two.size ∧ two.top ≤ two.bottom ∧ 1 < two.size ∧ two.mem.wf) ∧
    (0 < half.size ∧ half.top ≤ half.bottom ∧ ¬ 1 < half.size) ∧ vacantOne.size = 0 ∧
    (let s := { half with top := 1024 }; 0 < s.size ∧ s.bottom < s.top) := by decide

/-- PopUndoesPush: room for exactly one more. -/
theorem witness_push_then_pop : half.Inv ∧ half.size < half.stackCap ∧ vacantOne.Inv ∧ vacantOne.size < vacantOne.stackCap :=
  ⟨half_inv, by decide, vacantOne_inv, by decide⟩

/-- FrameSumIsExactInTheWrappingBand: the sum −2^32 of ST5, in the band, and the sum −2^31 − 1, outside it. -/
theorem witness_wrapping_band :
    let s := { two with regs := { zeros with d := BitVec.ofInt 32 (-2147483648) } }
    s.Inv ∧ 0 < s.size ∧ s.regs.d.toInt + (BitVec.ofInt 32 (-2147483648) : Word).toInt < -(2 ^ 31) ∧
    0 ≤ s.regs.d.toInt + (BitVec.ofInt 32 (-2147483648) : Word).toInt + 2 ^ 32 ∧
    s.regs.d.toInt + (-1 : Word).toInt < -(2 ^ 31) :=
  ⟨inv_of (by decide), by decide, by decide, by decide, by decide⟩

/-- InReadsAToken and EndOfInputWritesCThenTheOperand: the three outcomes. -/
theorem witness_in :
    two.dev.inputAnswers = true ∧
    inParse two.dev.parser [0x2B, 0x35] = (.value 5, []) ∧ inParse two.dev.parser two.dev.input = (.endOfInput, []) ∧
    inParse two.dev.parser [0x78, 0x0A] = (.malformed, [0x0A]) := by decide

/-- GetReadsOneByte and EndOfInputWritesCThenTheOperand: a byte, and none. -/
theorem witness_get :
    two.dev.inputAnswers = true ∧ (reading [0x20, 0x78] two).dev.input = 0x20 :: [0x78] ∧ two.dev.input = [] ∧
    Reg.B ≠ .C := by decide

/-- OutPassesItsRegister and PutWritesOneByteInRange: 0, 255, −1 and 256. -/
theorem witness_out_and_put :
    let s := { two with regs := { a := 255, b := -1, c := 256, d := 0 } }
    s.dev.outputAnswers = true ∧ (s.regs.get .A).toInt = ((255 : Byte).toNat : Int) ∧ (s.regs.get .D).toInt = ((0 : Byte).toNat : Int) ∧
    ¬ (0 ≤ (s.regs.get .B).toInt ∧ (s.regs.get .B).toInt ≤ 255) ∧
    ¬ (0 ≤ (s.regs.get .C).toInt ∧ (s.regs.get .C).toInt ≤ 255) := by decide

/-- UnansweredRequestsAreStuck. -/
theorem witness_unanswered :
    let s := { half with dev := { Device.reset with inputAnswers := false, outputAnswers := false } }
    s.dev.inputAnswers = false ∧ s.dev.outputAnswers = false ∧ 0 ≤ (s.regs.get .A).toInt ∧ (s.regs.get .A).toInt ≤ 255 ∧
    (Instr.put (-1)).isIo = true ∧ (Instr.put (-1)).wellFormed = false ∧
    faults (exec (.put 0) s) .ioBlocked = true := by decide

/-- DefaultTokenGrammar, the first two clauses: whitespace alone, the least value with its sign, and a bare one that stands
before whitespace. -/
theorem witness_token_value :
    [0x20, 0x09, 0x0D].all isSpaceByte = true ∧
    (([0x2D] : List Byte) = [0x2D] ∧ (-1 : Int) = -1) ∧ ([0x38] : List Byte) ≠ [] ∧ [0x30, 0x39].all isDigitByte = true ∧
    ∀ b bs, ([0x0A] : List Byte) = b :: bs → isSpaceByte b = true :=
  ⟨by decide, ⟨rfl, rfl⟩, by decide, by decide, fun _ _ h => by cases h; decide⟩

/-- DefaultTokenGrammar, the third clause: the token `x`. -/
theorem witness_token_malformed :
    ([0x78] : List Byte) ≠ [] ∧ (∀ b ∈ ([0x78] : List Byte), isSpaceByte b = false) ∧
    (∀ sign ds, sign = [] ∨ sign = [0x2B] ∨ sign = [0x2D] → ds ≠ [] → ds.all isDigitByte = true →
      ([0x78] : List Byte) ≠ sign ++ ds) ∧
    ∀ b bs, ([] : List Byte) = b :: bs → isSpaceByte b = true := by
  refine ⟨by decide, by decide, ?_, nofun⟩
  rintro sign ds (rfl | rfl | rfl) - hd h
  · rw [List.nil_append] at h
    rw [← h] at hd
    exact absurd hd (by decide)
  · exact absurd (List.cons.inj h).1 (by decide)
  · exact absurd (List.cons.inj h).1 (by decide)

/-- OutputRendering: a device that answers, and an `out` and a `put` that go on. -/
theorem witness_output :
    Device.reset.outputAnswers = true ∧ half.status = .ok ∧
    exec (.out 0) half = .next { half with ip := 2, dev := { half.dev with output := [.dec 7] } } ∧
    exec (.put 0) half = .next { half with ip := 2, dev := { half.dev with output := [.byte 7] } } :=
  ⟨rfl, rfl, rfl, rfl⟩

/-- OtherInstructionsIgnoreTheDevice: one that goes on and one that faults. -/
theorem witness_no_io :
    (Instr.inc 1).isIo = false ∧ exec (.inc 1) half = .next { half with ip := 2, regs := { half.regs with b := 1 } } ∧
    (Instr.pop 0).isIo = false ∧ exec (.pop 0) { half with top := 1024 } = .fault .noSuchCell := ⟨rfl, rfl, rfl, rfl⟩

/-- StepRunsTheDecodedInstruction: `halt` in the last cell of the instruction region. -/
theorem witness_step :
    let s := { machine [] 0 [] zeros with ip := 1023, mem := [(1023, 1)] }
    s.status = .ok ∧ s.InRegion ∧ decodeCells (s.cellsFrom s.ip.toInt.toNat) = .ok (.halt, []) := by decide

/-- OperandCellsMustLieInTheImage: V8 and V9. -/
theorem witness_operand_cells :
    (lastCells.status = .ok ∧ lastCells.InRegion ∧ lastCells.ip.toInt < lastCells.memCells ∧
      (encode (.movr 0 0)).head? = some (lastCells.cellAt 0) ∧
      (lastCells.memCells : Int) ≤ lastCells.ip.toInt + (Instr.movr 0 0).width - 1) ∧
    State.Holds { lastCells with mem := [(1022, 6)] } (.inc 0) := by
  refine ⟨by decide, ?_⟩
  unfold State.Holds
  decide

/-- ErrorPrecedence, EveryErrorHasItsCause: the instruction stands at `ip` and its own check fails, for each check. -/
theorem witness_own_errors :
    (machine [5, 1] 0 [] zeros).OwnError (.div 1) .divByZero ∧ two.OwnError (.load 2 2) .invalidStackOperation ∧
    two.OwnError (.store 0 (-1)) .invalidStackOperation ∧ two.OwnError (.push 0) .invalidStackOperation ∧
    vacantOne.OwnError (.pop 3) .invalidStackOperation ∧
    (machine [15, 0] 0 [] { zeros with a := 256 }).OwnError (.put 0) .illegalOperand :=
  ⟨.div .B rfl, .load .C 2 (by decide), .store .A (-1) (by decide), .push .A (by decide), .pop .D rfl,
    .put .A (by decide)⟩

theorem witness_holds :
    (machine [5, 1] 0 [] zeros).Holds (.div 1) ∧ (machine [2, 4] 0 [] zeros).Holds (.add 4) ∧
    (Instr.add 4).wellFormed = false ∧ (machine [12, 1] 0 [] zeros).Holds (.inp 1) ∧
    ¬ State.InRegion { machine [0] 0 [] zeros with ip := 1024 } := by
  simp only [State.Holds]
  decide

/-- EveryErrorHasItsCause, RaisingChangesOnlyTheStatus: a step that sets each status. -/
theorem witness_statuses :
    (goes (step (machine [19] 0 [] zeros)) fun t => decide (t.status = .illegalInstruction)) ∧
    (goes (step (machine [2, 4] 0 [] zeros)) fun t => decide (t.status = .illegalOperand)) ∧
    (goes (step { two with ip := -1 }) fun t => decide (t.status = .invalidAddress)) ∧
    (goes (step (machine [18, 0] 2 [] zeros)) fun t => decide (t.status = .invalidStackOperation)) ∧
    (goes (step (machine [5, 2] 0 [] { zeros with a := 5 })) fun t => decide (t.status = .divByZero)) ∧
    (goes (step (reading [0x78] (machine [12, 1] 0 [] zeros))) fun t => decide (t.status = .ioError)) ∧
    (goes (step (machine [1] 0 [] zeros)) fun t => decide (t.status = .halted)) := by decide

/-- The statements about `exec` or `step` that answers next (PointerUpdate, PointerNeverWraps, OnlyNamedRegistersChange,
OnlyStackCellsAreWritten, StepKeepsTheInvariant): `push A`. -/
theorem witness_next :
    half.Inv ∧ half.status = .ok ∧ half.InRegion ∧ half.Holds (.push 0) ∧ ¬ Instr.Writes (.push 0) .A ∧
    half.storesTo (.push 0) = some 1022 ∧ (∀ index, Instr.push 0 = .loop index → half.regs.c.toInt = 0) ∧
    exec (.push 0) half = .next { half with
      ip := 2, top := 1022, size := 2, mem := [(0, 17), (1022, 7), (1023, 30)] } ∧
    Memory.read [(0, 17), (1022, 7), (1023, 30)] 1022 ≠ half.mem.read 1022 :=
  ⟨half_inv, rfl, by decide, by unfold State.Holds; decide, not_false, rfl, nofun, rfl, by decide⟩

/-- PointerUpdate: a taken `loop`, and a step that raises. OnlyStackCellsAreWritten: an instruction that stores nothing. -/
theorem witness_pointer :
    lastCells.regs.c.toInt ≠ 0 ∧ exec (.loop 5000) lastCells = .next { lastCells with ip := 5000 } ∧
    exec (.add 4) two = .next { two with status := .illegalOperand } ∧ two.storesTo (.add 4) = none :=
  ⟨by decide, rfl, rfl, rfl⟩

/-- ReachedMachinesKeepTheInvariant: a register set by the host, a step, a reset. -/
theorem witness_reaches :
    two.Inv ∧ Reaches two (State.hostReset { two with regs := { zeros with b := 9 }, ip := 1 }) :=
  ⟨two_inv, .move .reset (.move .step (.move (.setRegister 1 9) (.start two) rfl) rfl) rfl⟩

/-- StackBoundsOfAMachine and MachineStepsComplete: with and without a stack, and with a device that does not answer. -/
theorem witness_machines :
    (two.Inv ∧ two.hasStack = true ∧ 1 ≤ two.size) ∧ (vacantOne.Inv ∧ vacantOne.size = 0) ∧
    (stackless.Inv ∧ stackless.hasStack = false) ∧
    (let s := { machine [13, 0] 0 [] zeros with dev := { Device.reset with inputAnswers := false } }
     s.Inv ∧ step s = .fault .ioBlocked) :=
  ⟨⟨two_inv, rfl, by decide⟩, ⟨vacantOne_inv, rfl⟩, ⟨stackless_inv, rfl⟩, ⟨inv_of (by decide), rfl⟩⟩

/-- L1.11's program of three cells, with a stack of one. -/
def loaded : List Byte := [9, 0, 0, 0, 0xFF, 0xFF, 0xFF, 0xFF, 1, 0, 0, 0x80]

/-- L1.11: the bytes of a program, least significant first. -/
theorem test_load_program :
    createMemory true loaded 1 1024 = .next
      { cells := [(0, 9), (1, -1), (2, BitVec.ofInt 32 (-2147483647))], memCells := 1024, stackCap := 1 } := rfl

/-- ImageHoldsTheProgram, CreatedMachinesSatisfyTheInvariant, ResetRestoresTheCreatedMachine, DefaultImageSizeIsTheLeastAdmitted. -/
theorem witness_creation :
    let img : Image := { cells := [(0, 9), (1, -1), (2, BitVec.ofInt 32 (-2147483647))], memCells := 1024, stackCap := 1 }
    loaded.length % 4 = 0 ∧ Config.validMemCells 1024 (loaded.length / 4) 1 ∧ Config.validMemCells 1024 0 1024 ∧
    Config.validMemCells Config.maxMemCells 1 0 ∧ createMemory true loaded 1 1024 = .next img ∧
    create true img img.bottom 1 Device.reset = .next (State.created img Device.reset) ∧
    Reaches (State.created img Device.reset) { State.created img Device.reset with status := .illegalOperand } :=
  ⟨rfl, by decide, by decide, by decide, rfl, rfl, .move .step (.start _) rfl⟩

/-- LoadAndCreationRefusals: five bytes (L1.4), another bottom, another capacity. -/
theorem witness_refusals :
    let img : Image := { cells := [], memCells := 1024, stackCap := 1 }
    ([9, 0, 0, 0, 1] : List Byte).length % 4 ≠ 0 ∧ ¬ ((1022 : Int) = img.bottom ∧ (1 : Int) = img.stackCap) ∧
    ¬ ((1023 : Int) = img.bottom ∧ (0 : Int) = img.stackCap) ∧ (1023 : Int) = img.bottom ∧ (1 : Int) = img.stackCap := by
  decide

/-- HostResetOperation: the ends of the stack region, and the cells beside it. -/
theorem witness_reset :
    two.roof ≤ 1022 ∧ 1023 ≤ two.bottom ∧ ¬ (two.roof ≤ 1021 ∧ 1021 ≤ two.bottom) ∧
    ¬ (two.roof ≤ 1024 ∧ 1024 ≤ two.bottom) ∧ two.hostReset.mem = [] := by decide

/-- RunIsRepeatedStepping, RunCountsItsSteps, HostObservations: V15's program, whose second step halts. -/
theorem witness_run :
    0 ≤ (2 : Word).toInt ∧ (-3 : Word).toInt ≤ 0 ∧ (0 : Word).toInt ≤ 0 ∧ two.Inv ∧ step two = .next { two with ip := 1 } ∧
    run 5 stackless = .next
      ({ stackless with regs := { zeros with a := 5, b := 1 }, ip := 4, status := .halted }, 2) :=
  ⟨by decide, by decide, by decide, two_inv, rfl, rfl⟩

end Sys2Proof.Machine.Tests
end

/-! The statements about what the specification's scope fixes: the narrowing to a word (00_scope.md R7), what a raised error
changes (R10) and the default image size (R6). -/

namespace Sys2Proof

/-! ### The narrowing (R7) -/

/-- The signed value of a narrowed integer is its balanced residue modulo 2^32. -/
theorem toInt_wrap32 (v : Int) : (wrap32 v).toInt = v.bmod (2 ^ 32) := BitVec.toInt_ofInt v

/-- Settles O1: both sides say that `w` and `v` have the same balanced residue. -/
theorem wrap32IsTheCongruentWord : Obligations.Wrap32IsTheCongruentWord := by
  intro v w
  calc wrap32 v = w
      ↔ w.toInt = (wrap32 v).toInt := by rw [BitVec.toInt_inj, eq_comm]
    _ ↔ w.toInt.bmod (2 ^ 32) = v.bmod (2 ^ 32) := by rw [toInt_wrap32, BitVec.toInt_bmod_cancel]
    _ ↔ (w.toInt - v).bmod (2 ^ 32) = 0 := Int.bmod_eq_bmod_iff_bmod_sub_eq_zero
    _ ↔ (2 ^ 32 : Int) ∣ w.toInt - v := Int.dvd_iff_bmod_eq_zero.symm

/-! ### The default image size (R6) -/

namespace Config

/-- The default image is a whole number of blocks. -/
theorem defaultMemCells_mod_blockCells (p cap : Nat) : defaultMemCells p cap % blockCells = 0 :=
  Nat.mul_mod_right ..

/-- The default image has a block even where nothing needs one. -/
theorem defaultMemCells_pos (p cap : Nat) : 0 < defaultMemCells p cap :=
  Nat.mul_pos (by decide) (by omega)

/-- The default image holds the program and the stack. -/
theorem le_defaultMemCells (p cap : Nat) : p + cap ≤ defaultMemCells p cap := by
  simp only [defaultMemCells, blockCells]
  omega

/-- Every non-empty image of whole blocks that holds the program and the stack has at least as many blocks. -/
theorem defaultMemCells_le {memCells p cap : Nat} (hpos : 0 < memCells) (hblocks : memCells % blockCells = 0)
    (hfits : p + cap ≤ memCells) : defaultMemCells p cap ≤ memCells := by
  obtain ⟨k, rfl⟩ := Nat.dvd_of_mod_eq_zero hblocks
  refine Nat.mul_le_mul_left blockCells (max_le (Nat.pos_of_mul_pos_left hpos) ?_)
  exact (Nat.div_le_iff_le_mul_add_pred (by decide)).mpr (Nat.add_le_add_right hfits _)

end Config

/-- Settles O53: the default is below every admitted size, so the upper bound passes down to it. -/
theorem defaultImageSizeIsTheLeastAdmitted : Obligations.DefaultImageSizeIsTheLeastAdmitted := by
  intro p cap memCells ⟨hpos, hblocks, hfits, hmax⟩
  have hle := Config.defaultMemCells_le hpos hblocks hfits
  exact ⟨⟨Config.defaultMemCells_pos p cap, Config.defaultMemCells_mod_blockCells p cap,
    Config.le_defaultMemCells p cap, hle.trans hmax⟩, hle⟩

end Sys2Proof

namespace Sys2Proof.Machine

/-! ### How a step ends (R10, R86, R126) -/

/-- The three ways a step from status OK ends with a next state: it completes; it raises an error, which changes only the
status; or its token request was answered with a malformed token, and the input it consumed is gone as well. -/
inductive StepEnd (s : State) : State → Prop
  | completed {t : State} (status : t.status = .ok ∨ t.status = .halted) : StepEnd s t
  | raised (e : Status) (not_io : e ≠ .ioError) : StepEnd s { s with status := e }
  | malformedToken : StepEnd s { s with
      status := .ioError, dev := { s.dev with input := (inParse s.dev.parser s.dev.input).2 } }

/-- A raised error other than IO_ERROR. -/
theorem raise_stepEnd {e : Status} {s t : State} (h : raise e s = .next t) (he : e ≠ .ioError) : StepEnd s t := by
  obtain rfl := raise_next h
  exact .raised e he

/-- A register operand is valid, or the handler raises ILLEGAL_OPERAND (R85). -/
theorem withReg_stepEnd {s t : State} {cell : Word} {k : Reg → StepOutcome} (h : withReg cell s k = .next t)
    (hk : ∀ r, k r = .next t → StepEnd s t) : StepEnd s t := by
  obtain ⟨r, -, h⟩ | ⟨-, rfl⟩ := withReg_next h
  · exact hk r h
  · exact .raised .illegalOperand nofun

/-- A stack request is valid, or the handler raises INVALID_STACK_OPERATION (R106, R110, R111). -/
theorem withStack_stepEnd {s t : State} {req : StackReq} {num : Word} {k : StackOut → StepOutcome}
    (h : withStack req num s k = .next t) (hk : ∀ out, k out = .next t → StepEnd s t) : StepEnd s t := by
  obtain ⟨-, h⟩ | ⟨-, rfl⟩ := withStack_next h
  · exact hk _ h
  · exact .raised .invalidStackOperation nofun

/-- `halt` is a success terminal (R101). -/
theorem execHalt_stepEnd {s t : State} (h : execHalt s = .next t) : StepEnd s t := by
  obtain rfl := succeed_next h
  exact .completed (.inr rfl)

section FromOk

variable {s t : State} (hs : s.status = .ok)
include hs

/-- A handler that succeeds and commits no status leaves OK. -/
theorem succeed_stepEnd {w : Nat} {c : Commit} (h : succeed w c s = .next t) (hc : c.status = none) : StepEnd s t := by
  obtain rfl := succeed_next h
  exact .completed (.inl (by simp [hc, hs]))

/-- The shape `load`, `store`, `push` and `pop` share: a register operand, a valid stack request, a cell, success. -/
theorem stackAccess_stepEnd {cell num : Word} {req : StackReq} {addr : Int} {w : Nat}
    {c : Reg → StackOut → Nat → Word → Commit}
    (h : withReg cell s (fun r => withStack req num s fun out =>
      withCell s addr fun a v => succeed w (c r out a v) s) = .next t)
    (hc : ∀ r out a v, (c r out a v).status = none) : StepEnd s t :=
  withReg_stepEnd h fun r h => withStack_stepEnd h fun _ h => succeed_stepEnd hs (withCell_next h).2 (hc r _ _ _)

/-- A handler whose register operand is its only check. -/
theorem checkedReg_stepEnd {cell : Word} {w : Nat} {c : Reg → Commit}
    (h : withReg cell s (fun r => succeed w (c r) s) = .next t) (hc : ∀ r, (c r).status = none) : StepEnd s t :=
  withReg_stepEnd h fun r h => succeed_stepEnd hs h (hc r)

theorem execDiv_stepEnd {reg : Word} (h : execDiv reg s = .next t) : StepEnd s t :=
  withReg_stepEnd h fun r h => by
    split at h
    · exact raise_stepEnd h nofun
    · exact succeed_stepEnd hs h rfl

theorem execLoop_stepEnd {index : Word} (h : execLoop index s = .next t) : StepEnd s t := by
  unfold execLoop at h
  split at h
  · exact succeed_stepEnd hs h rfl
  · cases h
    exact .completed (.inl hs)

theorem execSwap_stepEnd {reg1 reg2 : Word} (h : execSwap reg1 reg2 s = .next t) : StepEnd s t :=
  withReg_stepEnd h fun _ h => checkedReg_stepEnd hs h fun _ => rfl

/-- `in` is the one instruction that can end with IO_ERROR (R117). -/
theorem execIn_stepEnd {reg : Word} (h : execIn reg s = .next t) : StepEnd s t :=
  withReg_stepEnd h fun r h => by
    obtain ⟨⟨o, d⟩, ha, h⟩ := transact_next h
    obtain ⟨-, -, rfl⟩ := inToken_some ha
    cases o with
    | value v => exact succeed_stepEnd hs h rfl
    | endOfInput => exact succeed_stepEnd hs h rfl
    | malformed =>
      obtain rfl := raise_next h
      exact .malformedToken

theorem execGet_stepEnd {reg : Word} (h : execGet reg s = .next t) : StepEnd s t :=
  withReg_stepEnd h fun r h => by
    obtain ⟨⟨o, d⟩, -, h⟩ := transact_next h
    cases o with
    | byte b => exact succeed_stepEnd hs h rfl
    | endOfInput => exact succeed_stepEnd hs h rfl

theorem execOut_stepEnd {reg : Word} (h : execOut reg s = .next t) : StepEnd s t :=
  withReg_stepEnd h fun r h => by
    obtain ⟨d, -, h⟩ := transact_next h
    exact succeed_stepEnd hs h rfl

theorem execPut_stepEnd {reg : Word} (h : execPut reg s = .next t) : StepEnd s t :=
  withReg_stepEnd h fun r h => by
    split at h
    · obtain ⟨d, -, h⟩ := transact_next h
      exact succeed_stepEnd hs h rfl
    · exact raise_stepEnd h nofun

/-- How any instruction ends. -/
theorem exec_stepEnd {i : Instr} (h : exec i s = .next t) : StepEnd s t := by
  cases i with
  | nop => exact succeed_stepEnd hs h rfl
  | halt => exact execHalt_stepEnd h
  | add => exact checkedReg_stepEnd hs h fun _ => rfl
  | sub => exact checkedReg_stepEnd hs h fun _ => rfl
  | mul => exact checkedReg_stepEnd hs h fun _ => rfl
  | div => exact execDiv_stepEnd hs h
  | inc => exact checkedReg_stepEnd hs h fun _ => rfl
  | dec => exact checkedReg_stepEnd hs h fun _ => rfl
  | loop => exact execLoop_stepEnd hs h
  | movr => exact checkedReg_stepEnd hs h fun _ => rfl
  | load => exact stackAccess_stepEnd hs h fun _ _ _ _ => rfl
  | store => exact stackAccess_stepEnd hs h fun _ _ _ _ => rfl
  | inp => exact execIn_stepEnd hs h
  | get => exact execGet_stepEnd hs h
  | out => exact execOut_stepEnd hs h
  | put => exact execPut_stepEnd hs h
  | swap => exact execSwap_stepEnd hs h
  | push => exact stackAccess_stepEnd hs h fun _ _ _ _ => rfl
  | pop => exact stackAccess_stepEnd hs h fun _ _ _ _ => rfl

end FromOk

/-- The fetch raises ILLEGAL_INSTRUCTION and INVALID_ADDRESS only (R80, R81, R82). -/
theorem fetchDecode_raised {s : State} {e : Status} (h : fetchDecode s = .raised e) :
    e = .invalidAddress ∨ e = .illegalInstruction := by
  unfold fetchDecode at h
  split at h
  · cases h
  split at h
  · exact .inl (Fetched.raised.inj h).symm
  split at h
  · cases h
  split at h
  · exact .inr (Fetched.raised.inj h).symm
  split at h
  · exact .inl (Fetched.raised.inj h).symm
  · cases h

/-- How any step from status OK ends. -/
theorem step_stepEnd {s t : State} (hs : s.status = .ok) (h : step s = .next t) : StepEnd s t := by
  obtain ⟨-, rfl⟩ | ⟨e, hf, rfl⟩ | ⟨i, -, h⟩ := step_next h
  · exact .completed (.inl hs)
  · exact .raised e (by obtain rfl | rfl := fetchDecode_raised hf <;> nofun)
  · exact exec_stepEnd hs h

/-- Settles O40: of the three ends of a step, two leave an error status, and each names the whole state it leaves; the
machine is then stopped (R79). -/
theorem raisingChangesOnlyTheStatus : Obligations.RaisingChangesOnlyTheStatus := by
  intro s t hs h hok hhalted
  have hstop : stepReturns t = false ∧ step t = .next t := ⟨decide_eq_false hok, step_of_stopped hok⟩
  cases step_stepEnd hs h with
  | completed status => exact absurd status (not_or.mpr ⟨hok, hhalted⟩)
  | raised e not_io => exact ⟨fun hio => absurd hio not_io, fun _ => rfl, hstop⟩
  | malformedToken => exact ⟨fun _ => rfl, fun hio => absurd rfl hio, hstop⟩

end Sys2Proof.Machine


/-! The statements about the state (10_state.md): its invariant (R24 to R27), the register operands and the host's register
calls (R20, R40), the status (R21), and what an instruction does to the registers and the pointer (R19, R22, R23). -/

namespace Sys2Proof.Machine

/-! ### Register operands (R19, R20, R85) -/

/-- A cell names the register whose index it holds. -/
theorem regOperand_eq_some_iff_index {cell : Word} {r : Reg} : regOperand cell = some r ↔ cell = r.index := by
  rw [regOperand_eq_some_iff, ← BitVec.toInt_inj]
  cases r <;> rfl

@[simp] theorem regOperand_index (r : Reg) : regOperand r.index = some r :=
  regOperand_eq_some_iff_index.mpr rfl

theorem invalidRegCell_or_index (cell : Word) : InvalidRegCell cell ∨ ∃ r : Reg, cell = r.index := by
  cases h : regOperand cell with
  | none => exact .inl (regOperand_eq_none_iff.mp h)
  | some r => exact .inr ⟨r, regOperand_eq_some_iff_index.mp h⟩

theorem index_not_invalidRegCell (r : Reg) : ¬ InvalidRegCell r.index :=
  mt regOperand_eq_none_iff.mpr (by simp)

/-- Two registers with one index are what that index's cell names, so they are the same. -/
theorem index_injective : Function.Injective Reg.index := fun r _ h =>
  Option.some.inj ((regOperand_index r).symm.trans (regOperand_eq_some_iff_index.mpr h))

/-- An invalid register operand raises ILLEGAL_OPERAND, whatever the handler (R85). -/
theorem withReg_invalid {cell : Word} {s : State} {k : Reg → StepOutcome} (h : InvalidRegCell cell) :
    withReg cell s k = .next { s with status := .illegalOperand } :=
  withReg_none (regOperand_eq_none_iff.mpr h)

theorem withReg_index (r : Reg) (s : State) (k : Reg → StepOutcome) : withReg r.index s k = k r :=
  withReg_some (regOperand_index r)

/-- The second operand of `swap` is checked where the first is valid; either way the same error is raised (R105). -/
theorem execSwap_invalid {reg1 reg2 : Word} {s : State} (h : InvalidRegCell reg1 ∨ InvalidRegCell reg2) :
    execSwap reg1 reg2 s = .next { s with status := .illegalOperand } := by
  obtain h1 | ⟨r1, rfl⟩ := invalidRegCell_or_index reg1
  · exact withReg_invalid h1
  · exact (withReg_index r1 s _).trans (withReg_invalid (h.resolve_left (index_not_invalidRegCell r1)))

/-- Every instruction checks all its register operands before anything else of its own (R85). -/
theorem exec_invalid_operand {i : Instr} {s : State} {cell : Word} (hmem : cell ∈ i.regOperands)
    (hbad : InvalidRegCell cell) : exec i s = .next { s with status := .illegalOperand } := by
  cases i with
  | nop | halt | loop _ => cases hmem
  | swap reg1 reg2 =>
    obtain rfl | rfl := List.mem_pair.mp hmem
    · exact execSwap_invalid (.inl hbad)
    · exact execSwap_invalid (.inr hbad)
  | add _ | sub _ | mul _ | div _ | inc _ | dec _ | movr _ _ | load _ _ | store _ _ | inp _ | get _ | out _ | put _
  | push _ | pop _ =>
    obtain rfl := List.mem_singleton.mp hmem
    exact withReg_invalid hbad

/-- Settles O2: the first clause is R85 for all instructions, the others are R20's numbering. -/
theorem invalidRegisterOperandRaises : Obligations.InvalidRegisterOperandRaises :=
  ⟨fun _ _ _ => exec_invalid_operand, invalidRegCell_or_index, index_not_invalidRegCell,
    fun _ _ h => index_injective h, fun _ => ⟨rfl, rfl, rfl⟩⟩

/-! ### The host's register calls (R40) -/

theorem getRegister_index (r : Reg) (s : State) : getRegister r.index s = .next (s.regs.get r) := by
  simp [getRegister]

theorem setRegister_index (r : Reg) (v : Word) (s : State) :
    setRegister r.index v s = .next { s with regs := s.regs.set r v } := by
  simp [setRegister]

theorem getRegister_invalid {cell : Word} {s : State} (h : InvalidRegCell cell) :
    getRegister cell s = .refused .invalidRegisterIndex := by
  simp [getRegister, regOperand_eq_none_iff.mpr h]

theorem setRegister_invalid {cell v : Word} {s : State} (h : InvalidRegCell cell) :
    setRegister cell v s = .refused .invalidRegisterIndex := by
  simp [setRegister, regOperand_eq_none_iff.mpr h]

/-- A register write that is accepted writes one register, and nothing else of the state. -/
theorem setRegister_next {cell v : Word} {s t : State} (h : setRegister cell v s = .next t) :
    ∃ r : Reg, cell = r.index ∧ t = { s with regs := s.regs.set r v } := by
  obtain hbad | ⟨r, rfl⟩ := invalidRegCell_or_index cell
  · rw [setRegister_invalid hbad] at h
    cases h
  · rw [setRegister_index] at h
    cases h
    exact ⟨r, rfl, rfl⟩

/-- Settles O56: a call answers as its register access does. -/
theorem hostRegisterAccess : Obligations.HostRegisterAccess := by
  refine ⟨fun s r => ?_, fun s r v => ⟨{ s with regs := s.regs.set r v }, ?_, rfl, ?_, ?_⟩, fun s cell v h => ⟨?_, ?_⟩⟩
  · simp [hostCall, State.answer, getRegister_index]
  · simp [hostCall, State.answer, setRegister_index]
  · exact Regs.get_set_same ..
  · exact fun q hq => Regs.get_set_of_ne _ v hq
  · simp [hostCall, State.answer, getRegister_invalid h]
  · simp [hostCall, State.answer, setRegister_invalid h]

/-! ### The status (R21) -/

/-- A stopped machine does not step, and the host's register writes do not touch the status. -/
theorem move_keeps_status {s t : State} {m : HostMove} (hs : s.status ≠ .ok) (hm : m ≠ .reset)
    (h : s.move m = .next t) : t.status = s.status := by
  cases m with
  | setRegister reg value =>
    obtain ⟨r, -, rfl⟩ := setRegister_next h
    rfl
  | step =>
    cases (step_of_stopped hs).symm.trans h
    rfl
  | reset => exact absurd rfl hm

/-- Settles O3: the codes are R21's table, and reset is the one move that leaves an error. -/
theorem statusIsStickyUntilReset : Obligations.StatusIsStickyUntilReset :=
  ⟨rfl, fun _ _ _ => move_keeps_status, fun s => ⟨s.hostReset, rfl, hostReset_status s⟩⟩

/-! ### The invariant (R24 to R27, R112) -/

section Invariant

variable {s t : State}

theorem State.Kept.memCells_eq (hk : s.Kept t) : t.memCells = s.memCells := by
  simp [State.memCells, hk.bottom]

theorem State.Kept.stackCap_eq (hk : s.Kept t) : t.stackCap = s.stackCap := by
  simp [State.stackCap, hk.bottom, hk.roof]

/-- The sizes are fixed at creation (R24, R25). -/
theorem State.SizesOk.of_kept (hs : s.SizesOk) (hk : s.Kept t) : t.SizesOk where
  blocks := hk.memCells_eq ▸ hs.blocks
  bound := hk.memCells_eq ▸ hs.bound
  roof_le := by rw [hk.memCells_eq, hk.roof]; exact hs.roof_le
  hasStack_iff := by rw [hk.hasStack, hk.stackCap_eq]; exact hs.hasStack_iff

/-- `top` and `size` move together, as R26 relates them. -/
theorem State.StackOk.of_effect (hs : s.StackOk) (hk : s.Kept t) (he : Effect s t) : t.StackOk := by
  obtain ⟨hsize, htop⟩ := hs
  have hcap : s.stackCap = s.bottom + 1 - s.roof := rfl
  constructor
  · rw [hk.stackCap_eq]
    cases he with
    | quiet | stored | pushed | popped => omega
  · rw [hk.bottom]
    cases he with
    | quiet | stored | pushed => omega
    | popped live exists_top top size mem => split at top <;> omega

/-- A written cell of the image keeps the image in order, if each cell that is vacant afterwards was vacant and is not the
written one, or is the written one and was zeroed. -/
theorem State.ImageOk.of_write (hs : s.ImageOk) (hk : s.Kept t) {a : Nat} {v : Word} (ha : a ≤ s.bottom)
    (hmem : t.mem = s.mem.write a v) (hvacant : ∀ b, t.vacant b → b ≠ a ∧ s.vacant b ∨ b = a ∧ v = 0) :
    t.ImageOk where
  canonical := hmem ▸ Memory.wf_write hs.canonical a v
  inside e he := by
    rw [hk.memCells_eq]
    obtain he | ⟨rfl, -⟩ := Memory.mem_write (hmem ▸ he)
    · exact hs.inside e he
    · exact Nat.lt_succ_of_le ha
  vacant_zero b hb := by
    rw [hmem]
    obtain ⟨hne, hb⟩ | ⟨rfl, rfl⟩ := hvacant b hb
    · rw [Memory.read_write_of_ne _ _ hne, hs.vacant_zero b hb]
    · exact Memory.read_write_same hs.canonical b 0

/-- The live window grows by the pushed cell, and shrinks by the popped one, which is zeroed (R27). -/
theorem State.ImageOk.of_effect (hs : s.ImageOk) (hstack : s.StackOk) (hk : s.Kept t) (he : Effect s t) :
    t.ImageOk := by
  obtain ⟨hsize, htop⟩ := hstack
  have hvacant : ∀ b, t.vacant b ↔ s.roof ≤ b ∧ b ≤ s.bottom ∧ ¬ (1 ≤ t.size ∧ t.top ≤ b) := fun b => by
    rw [State.vacant, hk.roof, hk.bottom]
  cases he with
  | quiet top size mem =>
    refine ⟨mem ▸ hs.canonical, ?_, fun b hb => ?_⟩
    · rw [mem, hk.memCells_eq]
      exact hs.inside
    · rw [hvacant, size, top] at hb
      exact mem ▸ hs.vacant_zero b hb
  | stored a v live top size mem =>
    obtain ⟨-, hpos, hlo, hhi⟩ := live
    refine hs.of_write hk hhi mem fun b hb => .inl ?_
    rw [hvacant, size, top] at hb
    exact ⟨by omega, hb⟩
  | pushed v room top size mem =>
    refine hs.of_write hk (Nat.sub_le ..) mem fun b hb => .inl ?_
    rw [hvacant] at hb
    exact ⟨by omega, hb.1, hb.2.1, by omega⟩
  | popped live exists_top top size mem =>
    refine hs.of_write hk exists_top mem fun b hb => ?_
    rw [hvacant] at hb
    obtain rfl | hne := eq_or_ne b s.top
    · exact .inr ⟨rfl, rfl⟩
    · refine .inl ⟨hne, hb.1, hb.2.1, ?_⟩
      split at top <;> omega

theorem State.Inv.of_effect (hs : s.Inv) (hk : s.Kept t) (he : Effect s t) : t.Inv :=
  ⟨hs.sizes.of_kept hk, hs.stack.of_effect hk he, hs.image.of_effect hs.stack hk he⟩

theorem State.Inv.step (hs : s.Inv) (h : Machine.step s = .next t) : t.Inv :=
  have ⟨hk, he⟩ := step_effect h
  hs.of_effect hk he

/-- Without a stack, ROOF is the image's size and `size` is 0 (log 7). -/
theorem State.Inv.of_not_hasStack (hs : s.Inv) (hno : s.hasStack = false) : s.roof = s.bottom + 1 ∧ s.size = 0 := by
  have hcap : ¬ 0 < s.stackCap := fun h => by simp [hs.sizes.hasStack_iff.mpr h] at hno
  have hroof := hs.sizes.roof_le
  have hsize := hs.stack.size_le
  simp only [State.stackCap, State.memCells] at hcap hroof hsize
  omega

end Invariant

/-- Settles O46: the effect of a step on the stack registers and the image is one of four. -/
theorem stepKeepsTheInvariant : Obligations.StepKeepsTheInvariant := fun _ _ hs => hs.step

/-- Settles O48: R26's equation for `top`, with `size` at most the length of [ROOF, BOTTOM]. -/
theorem stackBoundsOfAMachine : Obligations.StackBoundsOfAMachine := by
  intro s hs
  obtain ⟨hsize, htop⟩ := hs.stack
  have hcap : s.stackCap = s.bottom + 1 - s.roof := rfl
  refine ⟨by omega, fun hyes => ?_, fun hno => ?_, by omega, by omega⟩
  · have hpos := hs.sizes.hasStack_iff.mp hyes
    omega
  · obtain ⟨hroof, hzero⟩ := hs.of_not_hasStack hno
    omega

/-! ### What an instruction does to the registers and the pointer (R19, R22, R88) -/

/-- A write port of the register file that drives no other register than those the instruction writes. -/
def MayDrive (i : Instr) : Option (Reg × Word) → Prop
  | none => True
  | some (r, _) => i.Writes r

/-- A register the port does not drive. -/
theorem Regs.get_port_of_not_writes {i : Instr} {wr : Option (Reg × Word)} (hwr : MayDrive i wr) (x : Regs) {r : Reg}
    (hr : ¬ i.Writes r) : (x.port wr).get r = x.get r := by
  cases wr with
  | none => rfl
  | some p =>
    obtain ⟨q, v⟩ := p
    exact Regs.get_set_of_ne x v fun h => hr (h ▸ hwr)

/-- The commit of a handler keeps to its instruction: its ports drive only registers the instruction writes, and it sets no
status. -/
structure Commit.Fits (c : Commit) (i : Instr) : Prop where
  wr0 : MayDrive i c.wr0
  wr1 : MayDrive i c.wr1
  status : c.status = none

/-- What a handler that answers a next state did to the registers, the pointer and the status. -/
inductive HandlerEnd (i : Instr) (s t : State) : Prop where
  /-- It succeeded and advanced the pointer by the width (R88). -/
  | advanced (not_taken : ∀ index, i = .loop index → s.regs.c.toInt = 0) (ip : t.ip = nextIp s i.width)
      (status : t.status = s.status ∨ i = .halt) (regs : ∀ r, ¬ i.Writes r → t.regs.get r = s.regs.get r)
  /-- It was a taken `loop` (R102). -/
  | branched (index : Word) (instr : i = .loop index) (taken : s.regs.c.toInt ≠ 0) (ip : t.ip = index)
      (status : t.status = s.status) (regs : t.regs = s.regs)
  /-- It raised an error (R10, R126). -/
  | raised (not_halt : i ≠ .halt) (status : t.status ≠ .ok) (ip : t.ip = s.ip) (regs : t.regs = s.regs)

theorem execNop_end {s t : State} (h : execNop s = .next t) : HandlerEnd .nop s t := by
  obtain rfl := succeed_next h
  exact .advanced nofun rfl (.inl rfl) fun _ _ => rfl

theorem execHalt_end {s t : State} (h : execHalt s = .next t) : HandlerEnd .halt s t := by
  obtain rfl := succeed_next h
  exact .advanced nofun rfl (.inr rfl) fun _ _ => rfl

theorem execLoop_end {index : Word} {s t : State} (h : execLoop index s = .next t) :
    HandlerEnd (.loop index) s t := by
  unfold execLoop at h
  split at h
  · next hzero =>
    obtain rfl := succeed_next h
    exact .advanced (fun _ _ => of_decide_eq_true hzero) rfl (.inl rfl) fun _ _ => rfl
  · next hzero =>
    cases h
    exact .branched index rfl (of_decide_eq_false (eq_false_of_ne_true hzero)) rfl rfl rfl

section RegisterOperand

variable {i : Instr} {s t : State} (hi : i.regOperands ≠ [])
include hi

theorem raise_end {e : Status} (h : raise e s = .next t) (he : e ≠ .ok) : HandlerEnd i s t := by
  obtain rfl := raise_next h
  exact .raised (by rintro rfl; exact hi rfl) he rfl rfl

theorem succeed_end {c : Commit} (h : succeed i.width c s = .next t) (hc : c.Fits i) : HandlerEnd i s t := by
  obtain rfl := succeed_next h
  refine .advanced (by rintro _ rfl; exact absurd rfl hi) rfl (.inl (by simp [hc.status])) fun r hr => ?_
  exact (Regs.get_port_of_not_writes hc.wr1 _ hr).trans (Regs.get_port_of_not_writes hc.wr0 _ hr)

theorem withReg_end {cell : Word} {k : Reg → StepOutcome} (h : withReg cell s k = .next t)
    (hk : ∀ r, cell = r.index → k r = .next t → HandlerEnd i s t) : HandlerEnd i s t := by
  obtain ⟨r, hr, h⟩ | ⟨-, rfl⟩ := withReg_next h
  · exact hk r (regOperand_eq_some_iff_index.mp hr) h
  · exact raise_end hi rfl nofun

/-- A handler whose register operand is its only check. -/
theorem checkedReg_end {cell : Word} {c : Reg → Commit} (h : withReg cell s (fun r => succeed i.width (c r) s) = .next t)
    (hc : ∀ r, cell = r.index → (c r).Fits i) : HandlerEnd i s t :=
  withReg_end hi h fun r hr h => succeed_end hi h (hc r hr)

/-- The shape `load`, `store`, `push` and `pop` share. -/
theorem stackAccess_end {cell num : Word} {req : StackReq} {addr : Int} {c : Reg → StackOut → Nat → Word → Commit}
    (h : withReg cell s (fun r => withStack req num s fun out =>
      withCell s addr fun a v => succeed i.width (c r out a v) s) = .next t)
    (hc : ∀ r out a v, cell = r.index → (c r out a v).Fits i) : HandlerEnd i s t :=
  withReg_end hi h fun r hr h => by
    obtain ⟨-, h⟩ | ⟨-, rfl⟩ := withStack_next h
    · exact succeed_end hi (withCell_next h).2 (hc r _ _ _ hr)
    · exact raise_end hi rfl nofun

end RegisterOperand

section Handlers

variable {reg : Word} {s t : State}

theorem execDiv_end (h : execDiv reg s = .next t) : HandlerEnd (.div reg) s t :=
  withReg_end nofun h fun r _ h => by
    split at h
    · exact raise_end nofun h nofun
    · exact succeed_end nofun h ⟨rfl, trivial, rfl⟩

theorem execSwap_end {reg1 reg2 : Word} (h : execSwap reg1 reg2 s = .next t) : HandlerEnd (.swap reg1 reg2) s t :=
  withReg_end nofun h fun _ h1 h => checkedReg_end nofun h fun _ h2 => ⟨.inl h1, .inr h2, rfl⟩

theorem execIn_end (h : execIn reg s = .next t) : HandlerEnd (.inp reg) s t :=
  withReg_end nofun h fun r hr h => by
    obtain ⟨⟨o, d⟩, -, h⟩ := transact_next h
    cases o with
    | value v => exact succeed_end nofun h ⟨.inl hr, trivial, rfl⟩
    | endOfInput => exact succeed_end nofun h ⟨.inr rfl, .inl hr, rfl⟩
    | malformed =>
      obtain rfl := raise_next h
      exact .raised nofun nofun rfl rfl

theorem execGet_end (h : execGet reg s = .next t) : HandlerEnd (.get reg) s t :=
  withReg_end nofun h fun r hr h => by
    obtain ⟨⟨o, d⟩, -, h⟩ := transact_next h
    cases o with
    | byte b => exact succeed_end nofun h ⟨.inl hr, trivial, rfl⟩
    | endOfInput => exact succeed_end nofun h ⟨.inr rfl, .inl hr, rfl⟩

theorem execOut_end (h : execOut reg s = .next t) : HandlerEnd (.out reg) s t :=
  withReg_end nofun h fun r _ h => by
    obtain ⟨d, -, h⟩ := transact_next h
    exact succeed_end nofun h ⟨trivial, trivial, rfl⟩

theorem execPut_end (h : execPut reg s = .next t) : HandlerEnd (.put reg) s t :=
  withReg_end nofun h fun r _ h => by
    split at h
    · obtain ⟨d, -, h⟩ := transact_next h
      exact succeed_end nofun h ⟨trivial, trivial, rfl⟩
    · exact raise_end nofun h nofun

/-- How any instruction ends, for the registers and the pointer. -/
theorem exec_end {i : Instr} (h : exec i s = .next t) : HandlerEnd i s t := by
  cases i with
  | nop => exact execNop_end h
  | halt => exact execHalt_end h
  | add => exact checkedReg_end nofun h fun _ _ => ⟨rfl, trivial, rfl⟩
  | sub => exact checkedReg_end nofun h fun _ _ => ⟨rfl, trivial, rfl⟩
  | mul => exact checkedReg_end nofun h fun _ _ => ⟨rfl, trivial, rfl⟩
  | div => exact execDiv_end h
  | inc => exact checkedReg_end nofun h fun _ hr => ⟨hr, trivial, rfl⟩
  | dec => exact checkedReg_end nofun h fun _ hr => ⟨hr, trivial, rfl⟩
  | loop => exact execLoop_end h
  | movr => exact checkedReg_end nofun h fun _ hr => ⟨hr, trivial, rfl⟩
  | load => exact stackAccess_end nofun h fun _ _ _ _ hr => ⟨hr, trivial, rfl⟩
  | store => exact stackAccess_end nofun h fun _ _ _ _ _ => ⟨trivial, trivial, rfl⟩
  | inp => exact execIn_end h
  | get => exact execGet_end h
  | out => exact execOut_end h
  | put => exact execPut_end h
  | swap => exact execSwap_end h
  | push => exact stackAccess_end nofun h fun _ _ _ _ _ => ⟨trivial, trivial, rfl⟩
  | pop => exact stackAccess_end nofun h fun _ _ _ _ hr => ⟨hr, trivial, rfl⟩

end Handlers

/-- Settles O43: a handler that advances drives only the ports its instruction names, and the other ends write no register. -/
theorem onlyNamedRegistersChange : Obligations.OnlyNamedRegistersChange := by
  intro i s t r h hr
  cases exec_end h with
  | advanced not_taken ip status regs => exact regs r hr
  | branched index instr taken ip status regs => rw [regs]
  | raised not_halt status ip regs => rw [regs]

/-- No instruction is wider than three cells (R66). -/
theorem width_le_three (i : Instr) : i.width ≤ 3 := by
  cases i <;> simp [Instr.width, encode]

/-- From the instruction region of a machine, an advance by up to three cells stays below 2^31 (R23). -/
theorem nextIp_exact {s : State} (hs : s.SizesOk) (hr : s.InRegion) {w : Nat} (hw : w ≤ 3) :
    (nextIp s w).toInt = s.ip.toInt + w ∧ s.ip.toInt + w ≤ 2 ^ 31 - 1022 := by
  obtain ⟨hlo, hhi⟩ := hr
  have hroof := hs.roof_le
  have hmax : s.memCells ≤ 2 ^ 31 - 1024 := hs.bound
  have hbound : s.ip.toInt + w ≤ 2 ^ 31 - 1022 := by omega
  refine ⟨?_, hbound⟩
  rw [nextIp, toInt_wrap32]
  exact Int.bmod_eq_of_le (by omega) (by omega)

/-- Settles O42: the two ends of a handler that do not advance the pointer are the ones the hypotheses exclude. -/
theorem pointerNeverWraps : Obligations.PointerNeverWraps := by
  intro s t i hs hok hr hi h hgood hloop
  have hexec : exec i s = .next t := (step_of_execute (fetchDecode_holds hok hr hi)).symm.trans h
  cases exec_end hexec with
  | advanced not_taken ip status regs =>
    obtain ⟨hexact, hbound⟩ := nextIp_exact hs.sizes hr (width_le_three i)
    rw [ip, hexact]
    exact ⟨rfl, hbound⟩
  | branched index instr taken ip status regs => exact absurd (hloop index instr) taken
  | raised not_halt status ip regs => exact absurd hgood (not_or.mpr ⟨status, not_halt⟩)

end Sys2Proof.Machine


/-! The statements about the memory image (20_memory.md): cells and their bytes (R46), what a program's image holds (R136),
which cells an instruction writes and what every machine keeps (R45, R49, R50), and that no machine leaves its image (R53). -/

namespace Sys2Proof

/-! ### Cells and bytes (R46) -/

theorem length_bytesOfCell (w : Word) : (bytesOfCell w).length = 4 := rfl

theorem length_flatMap_bytesOfCell (cs : List Word) : (cs.flatMap bytesOfCell).length = 4 * cs.length := by
  induction cs with
  | nil => rfl
  | cons c cs ih =>
    rw [List.flatMap_cons, List.length_append, length_bytesOfCell, ih, List.length_cons]
    omega

theorem length_of_cellsOfBytes {bs : List Byte} {cs : List Word} (h : cellsOfBytes bs = some cs) :
    bs.length = 4 * cs.length := by
  rw [flatMap_of_cellsOfBytes h, length_flatMap_bytesOfCell]

/-- Every byte string of whole cells reads as cells. -/
theorem exists_cellsOfBytes {bs : List Byte} (h : bs.length % 4 = 0) : ∃ cs, cellsOfBytes bs = some cs := by
  induction bs using cellsOfBytes.induct with
  | case1 => exact ⟨[], rfl⟩
  | case2 b0 b1 b2 b3 rest ih =>
    obtain ⟨cs, hcs⟩ := ih (by simp only [List.length_cons] at h; omega)
    exact ⟨cellOfBytes b0 b1 b2 b3 :: cs, by simp [cellsOfBytes, hcs]⟩
  | case3 bs not_nil not_four =>
    match bs with
    | [] => exact absurd rfl not_nil
    | [_] | [_, _] | [_, _, _] => simp at h
    | b0 :: b1 :: b2 :: b3 :: rest => exact absurd rfl (not_four b0 b1 b2 b3 rest)

/-- Cell `i` of a byte string is made of the bytes from `4 * i` on, least significant first. -/
theorem getD_cellsOfBytes {bs : List Byte} {cs : List Word} (h : cellsOfBytes bs = some cs) {i : Nat}
    (hi : i < cs.length) :
    cs.getD i 0 = cellOfBytes (bs.getD (4 * i) 0) (bs.getD (4 * i + 1) 0) (bs.getD (4 * i + 2) 0)
      (bs.getD (4 * i + 3) 0) := by
  rw [flatMap_of_cellsOfBytes h]
  clear h
  induction cs generalizing i with
  | nil => cases hi
  | cons c cs ih =>
    cases i with
    | zero => exact (cellOfBytes_bytes c).symm
    | succ i => exact ih (Nat.lt_of_succ_lt_succ hi)

/-! ### Decoding what was encoded (R63, R64, R66) -/

/-- Whole cells decode from their bytes as they decode themselves. -/
theorem decodeBytes_flatMap (cs : List Word) : decodeBytes (cs.flatMap bytesOfCell) = decodeCells cs := by
  rw [decodeBytes, cellsOfBytes_flatMap]

theorem decodeCells_encode (i : Instr) (rest : List Word) : decodeCells (encode i ++ rest) = .ok (i, rest) := by
  cases i with
  | nop => exact Laws.CellRoundTrip.nop rest
  | halt => exact Laws.CellRoundTrip.halt rest
  | add reg => exact Laws.CellRoundTrip.add reg rest
  | sub reg => exact Laws.CellRoundTrip.sub reg rest
  | mul reg => exact Laws.CellRoundTrip.mul reg rest
  | div reg => exact Laws.CellRoundTrip.div reg rest
  | inc reg => exact Laws.CellRoundTrip.inc reg rest
  | dec reg => exact Laws.CellRoundTrip.dec reg rest
  | loop index => exact Laws.CellRoundTrip.loop index rest
  | movr reg num => exact Laws.CellRoundTrip.movr reg num rest
  | load reg num => exact Laws.CellRoundTrip.load reg num rest
  | store reg num => exact Laws.CellRoundTrip.store reg num rest
  | inp reg => exact Laws.CellRoundTrip.inp reg rest
  | get reg => exact Laws.CellRoundTrip.get reg rest
  | out reg => exact Laws.CellRoundTrip.out reg rest
  | put reg => exact Laws.CellRoundTrip.put reg rest
  | swap reg1 reg2 => exact Laws.CellRoundTrip.swap reg1 reg2 rest
  | push reg => exact Laws.CellRoundTrip.push reg rest
  | pop reg => exact Laws.CellRoundTrip.pop reg rest

theorem decodeBytes_encodeBytes (i : Instr) (rest : List Word) :
    decodeBytes (encodeBytes i ++ rest.flatMap bytesOfCell) = .ok (i, rest) := by
  rw [encodeBytes, ← List.flatMap_append, decodeBytes_flatMap, decodeCells_encode]

/-- The opcode cell alone gives the width (R66). -/
theorem width_eq_of_opcode (i : Instr) : ∃ opc, (encode i).head? = some opc ∧
    i.width = if opc = 0 ∨ opc = 1 then 1 else if opc = 9 ∨ opc = 10 ∨ opc = 11 ∨ opc = 16 then 3 else 2 := by
  cases i <;> exact ⟨_, rfl, rfl⟩

/-- Settles O4: bytes are read back as the cells they came from, and cells decode to the instruction that encodes to them. -/
theorem decodeOfEncodedBytes : Obligations.DecodeOfEncodedBytes := fun i rest =>
  ⟨decodeBytes_encodeBytes i rest, length_flatMap_bytesOfCell (encode i), width_eq_of_opcode i⟩

end Sys2Proof

namespace Sys2Proof.Machine

/-! ### The image of a program (R46, R136) -/

/-- The first cell laid out stands at the first address, a zero cell among them, which is not listed. -/
theorem Memory.read_ofCells_cons (c : Word) (cs : List Word) (a b : Nat) :
    (Memory.ofCells a (c :: cs)).read b = if b = a then c else (Memory.ofCells (a + 1) cs).read b := by
  have hbelow : (Memory.ofCells (a + 1) cs).read a = 0 :=
    Memory.read_eq_zero fun e he => Nat.ne_of_gt (Memory.mem_ofCells he).1
  rw [Memory.ofCells]
  by_cases hc : c = 0
  · by_cases hb : b = a
    · rw [if_pos hc, if_pos hb, hb, hbelow, hc]
    · rw [if_pos hc, if_neg hb]
  · rw [if_neg hc, Memory.read]

/-- Cells laid out from an address on are read back there, and past their end the image reads 0. -/
theorem Memory.read_ofCells (cs : List Word) (a i : Nat) : (Memory.ofCells a cs).read (a + i) = cs.getD i 0 := by
  induction cs generalizing a i with
  | nil => rfl
  | cons c cs ih =>
    rw [Memory.read_ofCells_cons]
    cases i with
    | zero => exact if_pos rfl
    | succ i => rw [if_neg (by omega), show a + (i + 1) = a + 1 + i by omega, ih, List.getD_cons_succ]

theorem createMemory_next {bytes : List Byte} {cells : List Word} {cap : Int} {memCells : Nat}
    (hcells : cellsOfBytes bytes = some cells) (hcap : 0 ≤ cap)
    (hvalid : Config.validMemCells memCells cells.length cap.toNat) :
    createMemory true bytes cap memCells =
      .next { cells := Memory.ofCells 0 cells, memCells := memCells, stackCap := cap.toNat } := by
  simp only [createMemory, hcells, if_neg (not_not.mpr (And.intro hcap hvalid)), if_true]

/-- Settles O51: the image lays out the cells that the bytes read as. -/
theorem imageHoldsTheProgram : Obligations.ImageHoldsTheProgram := by
  intro bytes cap memCells hwhole hcap hvalid
  obtain ⟨cells, hcells⟩ := exists_cellsOfBytes hwhole
  have hlength : bytes.length / 4 = cells.length := by
    rw [length_of_cellsOfBytes hcells, Nat.mul_div_cancel_left _ (by decide)]
  rw [hlength] at hvalid ⊢
  have hread : ∀ i, (Memory.ofCells 0 cells).read i = cells.getD i 0 := fun i => by
    simpa using Memory.read_ofCells cells 0 i
  refine ⟨_, createMemory_next hcells hcap hvalid, rfl, fun i hi => ?_, fun i hi => ?_⟩
  · exact (hread i).trans (getD_cellsOfBytes hcells hi)
  · exact (hread i).trans (List.getD_eq_default _ _ hi)

/-! ### Which cells an instruction writes (R49, R50) -/

/-- What a handler that answers a next state did to the image and to the stack registers: nothing, or it wrote the one cell
its instruction computes from the state before. -/
inductive WritesOnly (i : Instr) (s t : State) : Prop where
  | nothing (mem : t.mem = s.mem) (top : t.top = s.top) (size : t.size = s.size)
  | itsCell (a : Nat) (v : Word) (addr : s.storesTo i = some a) (mem : t.mem = s.mem.write a v)
      (window : (∀ reg, i ≠ .push reg) → (∀ reg, i ≠ .pop reg) → t.top = s.top ∧ t.size = s.size)

section WritesOnly

variable {i : Instr} {s t : State}

theorem raise_writesOnly {e : Status} (h : raise e s = .next t) : WritesOnly i s t := by
  obtain rfl := raise_next h
  exact .nothing rfl rfl rfl

/-- A handler that succeeds and drives neither the memory port nor the stack registers. -/
theorem succeed_writesOnly {w : Nat} {c : Commit} (h : succeed w c s = .next t) (hm : c.memWrite = none)
    (hs : c.stackNext = none) : WritesOnly i s t := by
  obtain rfl := succeed_next h
  exact .nothing (by simp [hm]) (by simp [hs]) (by simp [hs])

theorem withReg_writesOnly {cell : Word} {k : Reg → StepOutcome} (h : withReg cell s k = .next t)
    (hk : ∀ r, k r = .next t → WritesOnly i s t) : WritesOnly i s t := by
  obtain ⟨r, -, h⟩ | ⟨-, rfl⟩ := withReg_next h
  · exact hk r h
  · exact raise_writesOnly rfl

/-- A handler whose register operand is its only check. -/
theorem checkedReg_writesOnly {cell : Word} {w : Nat} {c : Reg → Commit}
    (h : withReg cell s (fun r => succeed w (c r) s) = .next t) (hm : ∀ r, (c r).memWrite = none)
    (hs : ∀ r, (c r).stackNext = none) : WritesOnly i s t :=
  withReg_writesOnly h fun r h => succeed_writesOnly h (hm r) (hs r)

/-- The shape `load`, `store`, `push` and `pop` share. -/
theorem stackAccess_writesOnly {cell num : Word} {req : StackReq} {addr : Int} {w : Nat}
    {c : Reg → StackOut → Nat → Word → Commit}
    (h : withReg cell s (fun r => withStack req num s fun out =>
      withCell s addr fun a v => succeed w (c r out a v) s) = .next t)
    (hc : ∀ r out v, succeed w (c r out addr.toNat v) s = .next t → WritesOnly i s t) : WritesOnly i s t :=
  withReg_writesOnly h fun r h => by
    obtain ⟨-, h⟩ | ⟨-, rfl⟩ := withStack_next h
    · exact hc r _ _ (withCell_next h).2
    · exact raise_writesOnly rfl

end WritesOnly

section Handlers

variable {reg num : Word} {s t : State}

theorem execDiv_writesOnly (h : execDiv reg s = .next t) : WritesOnly (.div reg) s t :=
  withReg_writesOnly h fun r h => by
    split at h
    · exact raise_writesOnly h
    · exact succeed_writesOnly h rfl rfl

theorem execLoop_writesOnly {index : Word} (h : execLoop index s = .next t) : WritesOnly (.loop index) s t := by
  unfold execLoop at h
  split at h
  · exact succeed_writesOnly h rfl rfl
  · cases h
    exact .nothing rfl rfl rfl

theorem execSwap_writesOnly {reg1 reg2 : Word} (h : execSwap reg1 reg2 s = .next t) :
    WritesOnly (.swap reg1 reg2) s t :=
  withReg_writesOnly h fun _ h => checkedReg_writesOnly h (fun _ => rfl) fun _ => rfl

theorem execStore_writesOnly (h : execStore reg num s = .next t) : WritesOnly (.store reg num) s t :=
  stackAccess_writesOnly h fun r out v h => by
    obtain rfl := succeed_next h
    exact .itsCell _ _ rfl rfl fun _ _ => ⟨rfl, rfl⟩

theorem execPush_writesOnly (h : execPush reg s = .next t) : WritesOnly (.push reg) s t :=
  stackAccess_writesOnly h fun r out v h => by
    obtain rfl := succeed_next h
    exact .itsCell _ _ rfl rfl fun not_push _ => absurd rfl (not_push reg)

theorem execPop_writesOnly (h : execPop reg s = .next t) : WritesOnly (.pop reg) s t :=
  stackAccess_writesOnly h fun r out v h => by
    obtain rfl := succeed_next h
    exact .itsCell _ _ rfl rfl fun _ not_pop => absurd rfl (not_pop reg)

theorem execIn_writesOnly (h : execIn reg s = .next t) : WritesOnly (.inp reg) s t :=
  withReg_writesOnly h fun r h => by
    obtain ⟨⟨o, d⟩, -, h⟩ := transact_next h
    cases o with
    | value v => exact succeed_writesOnly h rfl rfl
    | endOfInput => exact succeed_writesOnly h rfl rfl
    | malformed =>
      obtain rfl := raise_next h
      exact .nothing rfl rfl rfl

theorem execGet_writesOnly (h : execGet reg s = .next t) : WritesOnly (.get reg) s t :=
  withReg_writesOnly h fun r h => by
    obtain ⟨⟨o, d⟩, -, h⟩ := transact_next h
    cases o with
    | byte b => exact succeed_writesOnly h rfl rfl
    | endOfInput => exact succeed_writesOnly h rfl rfl

theorem execOut_writesOnly (h : execOut reg s = .next t) : WritesOnly (.out reg) s t :=
  withReg_writesOnly h fun r h => by
    obtain ⟨d, -, h⟩ := transact_next h
    exact succeed_writesOnly h rfl rfl

theorem execPut_writesOnly (h : execPut reg s = .next t) : WritesOnly (.put reg) s t :=
  withReg_writesOnly h fun r h => by
    split at h
    · obtain ⟨d, -, h⟩ := transact_next h
      exact succeed_writesOnly h rfl rfl
    · exact raise_writesOnly h

/-- What any instruction writes of the image and of the stack registers. -/
theorem exec_writesOnly {i : Instr} (h : exec i s = .next t) : WritesOnly i s t := by
  cases i with
  | nop => exact succeed_writesOnly h rfl rfl
  | halt => exact succeed_writesOnly h rfl rfl
  | add => exact checkedReg_writesOnly h (fun _ => rfl) fun _ => rfl
  | sub => exact checkedReg_writesOnly h (fun _ => rfl) fun _ => rfl
  | mul => exact checkedReg_writesOnly h (fun _ => rfl) fun _ => rfl
  | div => exact execDiv_writesOnly h
  | inc => exact checkedReg_writesOnly h (fun _ => rfl) fun _ => rfl
  | dec => exact checkedReg_writesOnly h (fun _ => rfl) fun _ => rfl
  | loop => exact execLoop_writesOnly h
  | movr => exact checkedReg_writesOnly h (fun _ => rfl) fun _ => rfl
  | load => exact stackAccess_writesOnly h fun _ _ _ h => succeed_writesOnly h rfl rfl
  | store => exact execStore_writesOnly h
  | inp => exact execIn_writesOnly h
  | get => exact execGet_writesOnly h
  | out => exact execOut_writesOnly h
  | put => exact execPut_writesOnly h
  | swap => exact execSwap_writesOnly h
  | push => exact execPush_writesOnly h
  | pop => exact execPop_writesOnly h

end Handlers

section WritesOnly

variable {i : Instr} {s t : State}

/-- An instruction that computes no cell to write leaves the image alone. -/
theorem WritesOnly.mem_eq (hw : WritesOnly i s t) (hnone : s.storesTo i = none) : t.mem = s.mem := by
  cases hw with
  | nothing mem top size => exact mem
  | itsCell a v addr mem window => cases hnone.symm.trans addr

/-- Every cell but the one the instruction computes reads as before. -/
theorem WritesOnly.read_eq (hw : WritesOnly i s t) {a b : Nat} (haddr : s.storesTo i = some a) (hb : b ≠ a) :
    t.mem.read b = s.mem.read b := by
  cases hw with
  | nothing mem top size => rw [mem]
  | itsCell c v addr mem window =>
    cases haddr.symm.trans addr
    rw [mem, Memory.read_write_of_ne _ _ hb]

/-- Only `push` and `pop` move the window. -/
theorem WritesOnly.window_eq (hw : WritesOnly i s t) (not_push : ∀ reg, i ≠ .push reg)
    (not_pop : ∀ reg, i ≠ .pop reg) : t.top = s.top ∧ t.size = s.size := by
  cases hw with
  | nothing mem top size => exact ⟨top, size⟩
  | itsCell a v addr mem window => exact window not_push not_pop

end WritesOnly

/-- On a machine, whatever cell changed lies in the stack region (R50). -/
theorem Effect.changed_in_stackRegion {s t : State} (he : Effect s t) (hs : s.Inv) {b : Nat}
    (hb : t.mem.read b ≠ s.mem.read b) : s.roof ≤ b ∧ b ≤ s.bottom := by
  obtain ⟨htop, hroof, -, -, -⟩ := stackBoundsOfAMachine s hs
  have hwritten : ∀ {a v}, t.mem = s.mem.write a v → b = a := fun {a v} mem => by
    by_contra hne
    exact hb (mem ▸ Memory.read_write_of_ne _ v hne)
  cases he with
  | quiet top size mem => exact absurd (congrArg (Memory.read · b) mem) hb
  | stored a v live top size mem =>
    obtain ⟨hyes, -, hlo, hhi⟩ := live
    obtain rfl := hwritten mem
    exact ⟨(hroof hyes).trans hlo, hhi⟩
  | pushed v room top size mem =>
    obtain rfl := hwritten mem
    omega
  | popped live exists_top top size mem =>
    obtain rfl := hwritten mem
    have hyes : s.hasStack = true := hs.sizes.hasStack_iff.mpr (live.trans_le hs.stack.size_le)
    exact ⟨hroof hyes, htop⟩

/-- Settles O44: what an instruction writes of the image is its own cell, and on a machine that cell is in the stack region. -/
theorem onlyStackCellsAreWritten : Obligations.OnlyStackCellsAreWritten := by
  intro i s t h
  have hw := exec_writesOnly h
  obtain ⟨hk, he⟩ := exec_effect h
  exact ⟨hw.mem_eq, fun _ haddr _ => hw.read_eq haddr, fun hs _ => he.changed_in_stackRegion hs, hw.window_eq,
    hk.roof, hk.bottom, hk.hasStack⟩

/-! ### What every reached machine keeps (R45, R50, R145) -/

theorem State.SameMachine.refl (s : State) : s.SameMachine s := ⟨rfl, rfl, rfl, rfl, fun _ _ => rfl⟩

theorem State.SameMachine.trans {s t u : State} (h : s.SameMachine t) (h' : t.SameMachine u) : s.SameMachine u where
  roof := h'.roof.trans h.roof
  bottom := h'.bottom.trans h.bottom
  hasStack := h'.hasStack.trans h.hasStack
  parser := h'.parser.trans h.parser
  instructions a ha := (h'.instructions a (h.roof ▸ ha)).trans (h.instructions a ha)

section Reaches

variable {s t : State} (hs : s.Inv)
include hs

/-- No effect of a step reaches below ROOF. -/
theorem State.Inv.sameMachine_of_effect (hk : s.Kept t) (he : Effect s t) : s.SameMachine t where
  roof := hk.roof
  bottom := hk.bottom
  hasStack := hk.hasStack
  parser := hk.parser
  instructions a ha := by
    by_contra hne
    exact absurd (he.changed_in_stackRegion hs hne).1 (Nat.not_le_of_lt ha)

theorem State.Inv.kept_by_effect (h : s.Kept t ∧ Effect s t) : t.Inv ∧ s.SameMachine t :=
  ⟨hs.of_effect h.1 h.2, hs.sameMachine_of_effect h.1 h.2⟩

/-- Reset empties the stack and zeroes its whole region (R141). -/
theorem State.Inv.hostReset : s.hostReset.Inv where
  sizes := hs.sizes.of_kept ⟨rfl, rfl, rfl, rfl⟩
  stack := ⟨Nat.zero_le _, rfl⟩
  image := {
    canonical := Memory.wf_zeroRange hs.image.canonical _ _
    inside := fun e he => hs.image.inside e (List.mem_of_mem_filter he)
    vacant_zero := fun _ ha => Memory.read_zeroRange_inside _ ⟨ha.1, ha.2.1⟩ }

theorem State.Inv.kept_by_move {m : HostMove} (h : s.move m = .next t) : t.Inv ∧ s.SameMachine t := by
  cases m with
  | setRegister reg value =>
    obtain ⟨r, -, rfl⟩ := setRegister_next h
    exact hs.kept_by_effect ⟨⟨rfl, rfl, rfl, rfl⟩, .quiet rfl rfl rfl⟩
  | step => exact hs.kept_by_effect (step_effect h)
  | reset =>
    cases h
    exact ⟨hs.hostReset, rfl, rfl, rfl, rfl, fun a ha =>
      Memory.read_zeroRange_outside _ fun inside => Nat.not_le_of_lt ha inside.1⟩

end Reaches

/-- Settles O47: by induction on the moves, each of which keeps the invariant and the instruction region. -/
theorem reachedMachinesKeepTheInvariant : Obligations.ReachedMachinesKeepTheInvariant := by
  intro s t hs h
  induction h with
  | start => exact ⟨hs, .refl s⟩
  | move m _ hmove ih =>
    obtain ⟨ht, hsame⟩ := ih
    obtain ⟨hu, hsame'⟩ := ht.kept_by_move hmove
    exact ⟨hu, hsame.trans hsame'⟩

/-! ### No access outside the image (R53) -/

theorem withCell_outside {s : State} {a : Int} {k : Nat → Word → StepOutcome} (h : s.hasCell a = false) :
    withCell s a k = .fault .noSuchCell := by
  simp [withCell, h]

theorem withStack_valid {req : StackReq} {num : Word} {s : State} {k : StackOut → StepOutcome}
    (h : (stackCheck req (translator s num).dPlusNum (translator s num).frameAddr s).stackOk = true) :
    withStack req num s k = k (stackCheck req (translator s num).dPlusNum (translator s num).frameAddr s) := by
  simp [withStack, h]

/-- Settles O23: the register operand and the stack request are valid, and the head's cell is not there. -/
theorem popOutsideTheImageFaults : Obligations.PopOutsideTheImageFaults := by
  intro s r hsize htop
  have hvalid : (stackCheck .pop (translator s 0).dPlusNum (translator s 0).frameAddr s).stackOk = true :=
    decide_eq_true (Nat.ne_of_gt hsize)
  have houtside : s.hasCell s.top = false := by
    rw [← Bool.not_eq_true, hasCell_iff, State.memCells]
    omega
  exact (withReg_index r s _).trans ((withStack_valid hvalid).trans (withCell_outside houtside))

/-- An outcome of a machine's step: a next state, or a wait on a device that does not answer. -/
def Completes (s : State) (o : StepOutcome) : Prop :=
  (∃ t, o = .next t) ∨ (o = .fault .ioBlocked ∧ (s.dev.inputAnswers = false ∨ s.dev.outputAnswers = false))

section Completes

variable {s : State}

theorem next_completes (t : State) : Completes s (.next t) := .inl ⟨t, rfl⟩

theorem withReg_completes {cell : Word} {k : Reg → StepOutcome} (hk : ∀ r, Completes s (k r)) :
    Completes s (withReg cell s k) := by
  cases hr : regOperand cell with
  | some r => exact withReg_some hr ▸ hk r
  | none => exact withReg_none hr ▸ next_completes _

/-- A handler whose register operand is its only check. -/
theorem checkedReg_completes {cell : Word} {w : Nat} {c : Reg → Commit} :
    Completes s (withReg cell s fun r => succeed w (c r) s) :=
  withReg_completes fun _ => next_completes _

/-- A request the device does not answer waits; the answer to any other is gone on with. -/
theorem transact_completes {α : Type} {answer : Option α} {k : α → StepOutcome}
    (hwait : answer = none → s.dev.inputAnswers = false ∨ s.dev.outputAnswers = false)
    (hk : ∀ r, Completes s (k r)) : Completes s (transact answer k) := by
  cases answer with
  | some r => exact hk r
  | none => exact .inr ⟨rfl, hwait rfl⟩

/-- A valid stack request is gone on with; an invalid one raises its error. -/
theorem withStack_completes {req : StackReq} {num : Word} {k : StackOut → StepOutcome}
    (hk : (stackCheck req (translator s num).dPlusNum (translator s num).frameAddr s).stackOk = true →
      ∀ out, Completes s (k out)) : Completes s (withStack req num s k) := by
  unfold withStack
  dsimp only
  split
  · next hvalid => exact hk hvalid _
  · exact next_completes _

theorem withCell_completes {addr : Int} {k : Nat → Word → StepOutcome} (hcell : s.hasCell addr = true)
    (hk : ∀ a v, Completes s (k a v)) : Completes s (withCell s addr k) := by
  rw [withCell, if_pos hcell]
  exact hk _ _

/-- The shape `load`, `store`, `push` and `pop` share: a valid request is for a cell of the image. -/
theorem stackAccess_completes {cell num : Word} {req : StackReq} {addr : Int} {w : Nat}
    {c : Reg → StackOut → Nat → Word → Commit}
    (hcell : (stackCheck req (translator s num).dPlusNum (translator s num).frameAddr s).stackOk = true →
      s.hasCell addr = true) :
    Completes s (withReg cell s fun r => withStack req num s fun out =>
      withCell s addr fun a v => succeed w (c r out a v) s) :=
  withReg_completes fun _ => withStack_completes fun hvalid _ =>
    withCell_completes (hcell hvalid) fun _ _ => next_completes _

/-- The cell of a valid frame access is in the image (R106). -/
theorem hasCell_frameAddr {num : Word}
    (h : frameOk s (translator s num).dPlusNum (translator s num).frameAddr = true) :
    s.hasCell (translator s num).frameAddr = true := by
  obtain ⟨-, -, hlo, hhi⟩ := frameOk_iff.mp h
  simp only [translator] at hlo hhi
  simp only [hasCell_iff, State.memCells, translator]
  omega

/-- The cell of a push with room is in the image (R110). -/
theorem hasCell_pushAddr (h : (s.roof : Int) ≤ s.bottom - s.size) : s.hasCell (translator s 0).pushAddr = true := by
  simp only [hasCell_iff, State.memCells, translator]
  omega

/-- A machine's head is a cell of the image (R26). -/
theorem State.Inv.hasCell_top (hs : s.Inv) : s.hasCell s.top = true := by
  have htop := (stackBoundsOfAMachine s hs).1
  rw [hasCell_iff, State.memCells]
  omega

theorem inToken_none {d : Device} (h : d.inToken = none) : d.inputAnswers = false := by
  simpa [Device.inToken] using h

theorem inByte_none {d : Device} (h : d.inByte = none) : d.inputAnswers = false := by
  unfold Device.inByte at h
  split at h
  · split at h <;> cases h
  · next hno => exact eq_false_of_ne_true hno

theorem accept_none {d : Device} {item : OutItem} (h : d.accept item = none) : d.outputAnswers = false := by
  simpa [Device.accept] using h

theorem execDiv_completes (reg : Word) : Completes s (execDiv reg s) :=
  withReg_completes fun _ => by split <;> exact next_completes _

theorem execLoop_completes (index : Word) : Completes s (execLoop index s) := by
  unfold execLoop
  split <;> exact next_completes _

theorem execIn_completes (reg : Word) : Completes s (execIn reg s) :=
  withReg_completes fun _ => transact_completes (fun h => .inl (inToken_none h)) fun ⟨o, _⟩ => by
    cases o <;> exact next_completes _

theorem execGet_completes (reg : Word) : Completes s (execGet reg s) :=
  withReg_completes fun _ => transact_completes (fun h => .inl (inByte_none h)) fun ⟨o, _⟩ => by
    cases o <;> exact next_completes _

theorem execOut_completes (reg : Word) : Completes s (execOut reg s) :=
  withReg_completes fun _ => transact_completes (fun h => .inr (accept_none h)) fun _ => next_completes _

theorem execPut_completes (reg : Word) : Completes s (execPut reg s) :=
  withReg_completes fun _ => by
    split
    · exact transact_completes (fun h => .inr (accept_none h)) fun _ => next_completes _
    · exact next_completes _

/-- On a machine every instruction completes, or waits. -/
theorem State.Inv.exec_completes (hs : s.Inv) (i : Instr) : Completes s (exec i s) := by
  cases i with
  | nop => exact next_completes _
  | halt => exact next_completes _
  | add => exact checkedReg_completes
  | sub => exact checkedReg_completes
  | mul => exact checkedReg_completes
  | div => exact execDiv_completes _
  | inc => exact checkedReg_completes
  | dec => exact checkedReg_completes
  | loop => exact execLoop_completes _
  | movr => exact checkedReg_completes
  | load => exact stackAccess_completes hasCell_frameAddr
  | store => exact stackAccess_completes hasCell_frameAddr
  | inp => exact execIn_completes _
  | get => exact execGet_completes _
  | out => exact execOut_completes _
  | put => exact execPut_completes _
  | swap => exact withReg_completes fun _ => checkedReg_completes
  | push => exact stackAccess_completes fun h => hasCell_pushAddr (not_lt.mp (of_decide_eq_true h))
  | pop => exact stackAccess_completes fun _ => hs.hasCell_top

/-- The instruction region is part of the image, so a fetch finds its cell (R52, R53). -/
theorem fetchDecode_ne_noCell (hroof : s.roof ≤ s.memCells) : fetchDecode s ≠ .noCell := by
  by_cases hs : s.status = .ok
  · by_cases hr : s.InRegion
    · have hc : s.ip.toInt < s.memCells := hr.2.trans_le (Int.ofNat_le.mpr hroof)
      rw [fetchDecode_inside hs hr hc]
      split
      · nofun
      · split <;> nofun
    · rw [fetchDecode_outside hs hr]
      nofun
  · rw [fetchDecode_stopped hs]
    nofun

/-- A machine's fetch meets a cell of the image, and so does every handler that accesses one. -/
theorem State.Inv.step_completes (hs : s.Inv) : Completes s (Machine.step s) := by
  cases hf : fetchDecode s with
  | stopped => exact .inl ⟨s, by rw [Machine.step, hf, stoppedStep]⟩
  | raised e => exact .inl ⟨_, step_of_raised hf⟩
  | noCell => exact absurd hf (fetchDecode_ne_noCell hs.sizes.roof_le)
  | execute i => exact step_of_execute hf ▸ hs.exec_completes i

end Completes

/-- Settles O49: by what the fetch and the handlers of a machine can answer. -/
theorem machineStepsComplete : Obligations.MachineStepsComplete := fun _ hs => hs.step_completes

end Sys2Proof.Machine

/-! The statements about the encoding (30_encoding.md): that bytes decode only to the instruction they encode (R61 to R63), which
opcode cells are illegal (R71), and the examples of R76. -/

namespace Sys2Proof

/-! ### The converse of decoding (R61, R62, R63) -/

/-- The operand cells a format reads are the first ones of the list they are taken from. -/
theorem take_operandCells {ops : List Word} {n : Nat} (hn : n ≤ 2) (hlen : n ≤ ops.length) :
    [ops.getD 0 0, ops.getD 1 0].take n = ops.take n := by
  match n, ops with
  | 0, _ => rfl
  | 1, _ :: _ => rfl
  | 2, _ :: _ :: _ => rfl

/-- A format's instruction encodes to the opcode, then the operand cells the format reads. -/
theorem encode_build_eq_cons {opc : Word} {f : Format} (hf : formatOf opc = some f) (o1 o2 : Word) :
    encode (f.build o1 o2) = opc :: [o1, o2].take (f.width - 1) := by
  obtain ⟨hpos, -⟩ := formatOf_width_pos hf
  rw [encode_build hf, List.take_cons hpos]

/-- Cells that decode are the cells of the instruction they decode to, then the cells left over. -/
theorem eq_encode_of_decodeCells {cells : List Word} {i : Instr} {rest : List Word}
    (h : decodeCells cells = .ok (i, rest)) : cells = encode i ++ rest := by
  cases cells with
  | nil => cases h
  | cons opc ops =>
    rw [decodeCells] at h
    split at h
    · cases h
    · next f hf =>
      split at h
      · cases h
      · next hlen =>
        cases h
        obtain ⟨-, h3⟩ := formatOf_width_pos hf
        rw [encode_build_eq_cons hf, take_operandCells (by omega) (by omega), List.cons_append, List.take_append_drop]

/-- Settles O5: the bytes are those of their cells, and the cells are those of the instruction they decode to. -/
theorem decodedBytesAreTheEncoding : Obligations.DecodedBytesAreTheEncoding := by
  intro bs i rest h
  rw [decodeBytes] at h
  split at h
  · cases h
  · next cells hcells =>
    rw [flatMap_of_cellsOfBytes hcells, eq_encode_of_decodeCells h, List.flatMap_append, encodeBytes]

/-! ### Illegal opcodes (R71) -/

/-- The opcode map has a row for each number of [0,18]. -/
theorem formatOf_isSome_of_le : ∀ n ≤ 18, (formatOf (BitVec.ofNat 32 n)).isSome := by decide

/-- Every instruction's opcode lies in [0,18]. -/
theorem encode_head_bounds {i : Instr} {opc : Word} {ops : List Word} (h : encode i = opc :: ops) :
    0 ≤ opc.toInt ∧ opc.toInt ≤ 18 := by
  cases i <;> cases h <;> decide

/-- The opcode map has no row exactly for the cells outside [0,18]. -/
theorem formatOf_eq_none_iff {opc : Word} : formatOf opc = none ↔ ¬ (0 ≤ opc.toInt ∧ opc.toInt ≤ 18) := by
  constructor
  · intro hnone ⟨h0, h18⟩
    have hopc : opc = BitVec.ofNat 32 opc.toInt.toNat := by
      rw [← BitVec.ofInt_natCast, Int.toNat_of_nonneg h0, BitVec.ofInt_toInt]
    have hsome := formatOf_isSome_of_le opc.toInt.toNat (by omega)
    rw [← hopc, hnone] at hsome
    cases hsome
  · intro hout
    cases hf : formatOf opc with
    | none => rfl
    | some f => exact absurd (encode_head_bounds (encode_build_eq_cons hf 0 0)) hout

/-- The decoder refuses a cell as an illegal opcode exactly where the map has no row for it, whatever cells follow. -/
theorem decodeCells_illegalOpcode_iff {opc : Word} {rest : List Word} :
    decodeCells (opc :: rest) = .error (.illegalOpcode opc) ↔ formatOf opc = none := by
  rw [decodeCells]
  split
  · next hf => exact iff_of_true rfl hf
  · next f hf =>
    rw [hf]
    split <;> exact iff_of_false nofun nofun

end Sys2Proof

namespace Sys2Proof.Machine

/-- A step that fetches a cell the opcode map has no row for raises ILLEGAL_INSTRUCTION (R81). -/
theorem step_of_illegalOpcode {s : State} (hs : s.status = .ok) (hr : s.InRegion) (hc : s.ip.toInt < s.memCells)
    (hopc : formatOf (s.cellAt 0) = none) : step s = .next { s with status := .illegalInstruction } := by
  have hfetch : fetchDecode s = .raised .illegalInstruction := by
    rw [State.cellAt, Nat.add_zero] at hopc
    rw [fetchDecode_inside hs hr hc, hopc]
  exact step_of_raised hfetch

/-- Settles O6: the cells outside [0,18] are those the opcode map has no row for. -/
theorem illegalOpcodesAreThoseOutsideTheMap : Obligations.IllegalOpcodesAreThoseOutsideTheMap :=
  ⟨fun _ _ => decodeCells_illegalOpcode_iff.trans formatOf_eq_none_iff,
    fun _ hs hr hc hout => step_of_illegalOpcode hs hr hc (formatOf_eq_none_iff.mpr hout)⟩

end Sys2Proof.Machine

namespace Sys2Proof

/-! ### The examples (R76) -/

/-- Settles O7: each example is the encoding of its instruction, and an encoding decodes to its instruction. -/
theorem writtenOutWordsDecode : Obligations.WrittenOutWordsDecode :=
  ⟨decodeBytes_encodeBytes (.movr 0 5) [], decodeBytes_encodeBytes .halt [], decodeBytes_encodeBytes (.loop (-1)) [],
    decodeCells_encode (.swap 1 3) []⟩

end Sys2Proof


/-! The statements about fetch, decode and dispatch (40_dispatch.md): the decoded instruction is what a step runs (R78, R82, R83),
the order of its errors (R84), the pointer (R88), and the run controller (R89, R91). -/

namespace Sys2Proof.Machine

/-! ### The instruction at the pointer (R61, R78, R82, R83) -/

section Fetch

variable {s : State} {i : Instr}

/-- A step from the instruction region runs the instruction whose cells stand at `ip`. -/
theorem step_of_holds (hs : s.status = .ok) (hr : s.InRegion) (hi : s.Holds i) : step s = exec i s :=
  step_of_execute (fetchDecode_holds hs hr hi)

theorem getElem?_cellsFrom {a k : Nat} (h : k < s.memCells - a) : (s.cellsFrom a)[k]? = some (s.mem.read (a + k)) := by
  simp [State.cellsFrom, h]

/-- An instruction whose cells begin what a fetch meets at `ip` stands there. -/
theorem holds_of_cellsFrom {rest : List Word} (h : s.cellsFrom s.ip.toInt.toNat = encode i ++ rest) : s.Holds i := by
  intro k hk
  have hlen : s.memCells - s.ip.toInt.toNat = (encode i).length + rest.length := by
    simpa [State.cellsFrom] using congrArg List.length h
  have hk' : k < s.memCells - s.ip.toInt.toNat := hlen ▸ Nat.lt_add_right _ hk
  have hcell : (encode i)[k]? = some (s.cellAt k) := by
    rw [← List.getElem?_append_left hk, ← h, getElem?_cellsFrom hk', State.cellAt]
  exact ⟨by omega, by simp [List.getD, hcell]⟩

/-- The opcode cell alone gives the width that the operand check takes (R66). -/
theorem formatOf_of_encode_head {opc : Word} (h : (encode i).head? = some opc) :
    ∃ f, formatOf opc = some f ∧ f.width = i.width := by
  obtain ⟨opc', f, ops, henc, hf, hwidth, -⟩ := encode_shape i
  rw [henc] at h
  cases h
  exact ⟨f, hf, by rw [hwidth, Instr.width, henc, List.length_cons]⟩

/-- An operand cell outside the image (R82). -/
theorem step_of_operand_outside (hs : s.status = .ok) (hr : s.InRegion) (hc : s.ip.toInt < s.memCells)
    (hopc : (encode i).head? = some (s.cellAt 0)) (hout : (s.memCells : Int) ≤ s.ip.toInt + i.width - 1) :
    step s = .next { s with status := .invalidAddress } := by
  obtain ⟨f, hf, hwidth⟩ := formatOf_of_encode_head hopc
  obtain ⟨hpos, hle⟩ := formatOf_width_pos hf
  have hbad : operandsOk s f.width = false := by
    rw [← Bool.not_eq_true, operandsOk_iff hpos hle hc, hwidth]
    omega
  have hfetch : fetchDecode s = .raised .invalidAddress := by
    rw [State.cellAt, Nat.add_zero] at hf
    rw [fetchDecode_inside hs hr hc, hf]
    simp [hbad]
  exact step_of_raised hfetch

end Fetch

/-- Settles O36: cells that decode to an instruction begin with its encoding, so it stands at `ip`. -/
theorem stepRunsTheDecodedInstruction : Obligations.StepRunsTheDecodedInstruction := fun _ _ _ hs hr hdec =>
  step_of_holds hs hr (holds_of_cellsFrom (eq_encode_of_decodeCells hdec))

/-- Settles O37: the operand check of the fetch, failed and passed. -/
theorem operandCellsMustLieInTheImage : Obligations.OperandCellsMustLieInTheImage :=
  ⟨fun _ _ => step_of_operand_outside, fun _ _ => step_of_holds⟩

/-! ### The errors of a handler (R84, items 5 to 7) -/

section Errors

variable {s : State}

/-- An ill-formed instruction has an operand that names no register. -/
theorem exists_invalid_operand {i : Instr} (h : i.wellFormed = false) : ∃ cell ∈ i.regOperands, InvalidRegCell cell := by
  simpa [Instr.wellFormed, validRegCell] using h

theorem withStack_invalid {req : StackReq} {num : Word} {k : StackOut → StepOutcome}
    (h : (stackCheck req (translator s num).dPlusNum (translator s num).frameAddr s).stackOk = false) :
    withStack req num s k = .next { s with status := .invalidStackOperation } := by
  simp [withStack, h, raise_eq]

/-- The checker's test of a frame access is R106's. -/
theorem frameOk_eq_false_of_not_frameValid {num : Word} (h : ¬ s.FrameValid num) :
    frameOk s (translator s num).dPlusNum (translator s num).frameAddr = false := by
  rw [← Bool.not_eq_true, frameOk_iff]
  exact h

/-- A valid register that holds 0 is no divisor (R97). -/
theorem execDiv_zero {r : Reg} (h : s.regs.get r = 0) :
    execDiv r.index s = .next { s with status := .divByZero } := by
  have hzero : (aluAt .div s.regs.a (s.regs.get r) s).bIsZero = true := by rw [h]; rfl
  rw [execDiv, withReg_index, if_pos hzero, raise_eq]

/-- A valid register that holds no byte is not put (R121). -/
theorem execPut_outOfRange {r : Reg} (h : ¬ (0 ≤ (s.regs.get r).toInt ∧ (s.regs.get r).toInt ≤ 255)) :
    execPut r.index s = .next { s with status := .illegalOperand } := by
  have hbyte : ¬ (aluOps .add 0 (s.regs.get r) s.regs.c).byteOk = true := fun hbyte => h (of_decide_eq_true hbyte)
  rw [execPut, withReg_index, if_neg hbyte, raise_eq]

/-- A token the grammar does not accept: the input it used up is gone (R117). -/
theorem execIn_malformed {r : Reg} {rest : List Byte} (hanswers : s.dev.inputAnswers = true)
    (hparse : inParse s.dev.parser s.dev.input = (.malformed, rest)) :
    execIn r.index s = .next { s with status := .ioError, dev := { s.dev with input := rest } } := by
  have htoken : s.dev.inToken = some (.malformed, { s.dev with input := rest }) := by
    simp [Device.inToken, hanswers, hparse]
  rw [execIn, withReg_index, htoken]
  rfl

/-- An instruction whose own check fails raises that check's error. -/
theorem exec_ownError {i : Instr} {e : Status} (h : s.OwnError i e) : exec i s = .next { s with status := e } := by
  cases h with
  | div r zero => exact execDiv_zero zero
  | load r num bad => exact (withReg_index r s _).trans (withStack_invalid (frameOk_eq_false_of_not_frameValid bad))
  | store r num bad => exact (withReg_index r s _).trans (withStack_invalid (frameOk_eq_false_of_not_frameValid bad))
  | push r full => exact (withReg_index r s _).trans (withStack_invalid (decide_eq_false (not_not.mpr full)))
  | pop r empty => exact (withReg_index r s _).trans (withStack_invalid (decide_eq_false (not_not.mpr empty)))
  | put r bad => exact execPut_outOfRange bad

end Errors

/-- Settles O38: the first four items are the fetch's, the others those of the handler of the instruction at `ip`. -/
theorem errorPrecedence : Obligations.ErrorPrecedence := by
  intro s
  refine ⟨step_of_stopped, fun hs hr => step_of_raised (fetchDecode_outside hs hr), fun hs hr hc =>
    ⟨fun hopc => step_of_illegalOpcode hs hr hc (formatOf_eq_none_iff.mpr hopc), fun i hopc => ⟨?_, ?_, ?_⟩, ?_⟩⟩
  · exact step_of_operand_outside hs hr hc hopc
  · intro hi hbad
    obtain ⟨cell, hmem, hcell⟩ := exists_invalid_operand hbad
    exact (step_of_holds hs hr hi).trans (exec_invalid_operand hmem hcell)
  · exact fun e hi hown => (step_of_holds hs hr hi).trans (exec_ownError hown)
  · exact fun r rest hi hanswers hparse => (step_of_holds hs hr hi).trans (execIn_malformed hanswers hparse)

/-! ### The pointer (R88, R102) -/

/-- A taken `loop` writes the pointer and nothing else. -/
theorem execLoop_taken {s : State} {index : Word} (h : s.regs.c.toInt ≠ 0) :
    execLoop index s = .next { s with ip := index } := by
  have hzero : ¬ (aluOps .add 0 0 s.regs.c).cIsZero = true := fun hzero => h (of_decide_eq_true hzero)
  rw [execLoop, if_neg hzero]
  rfl

/-- Settles O41: by how a handler ends; a taken `loop` cannot raise, which the ends alone do not say. -/
theorem pointerUpdate : Obligations.PointerUpdate := by
  intro i s t hs h
  refine ⟨?_, fun hloop hgood => ?_, fun hstatus hhalt => ?_⟩
  · rintro index rfl htaken
    cases (execLoop_taken htaken).symm.trans h
    rfl
  · cases exec_end h with
    | advanced not_taken ip status regs => exact ip
    | branched index instr taken ip status regs => exact absurd (hloop index instr) taken
    | raised not_halt status ip regs => exact absurd hgood (not_or.mpr ⟨status, not_halt⟩)
  · cases exec_end h with
    | advanced not_taken ip status regs => exact absurd ((status.resolve_right hhalt).trans hs) hstatus
    | branched index instr taken ip status regs => exact absurd (status.trans hs) hstatus
    | raised not_halt status ip regs => exact ip

/-! ### Repeated steps and the run controller (R89, R91) -/

section HostCore

variable {M : Host.Core} {s t : M.State} {n : Nat}

theorem coreRun_succ_of_next (h : M.step s = .next t) : M.run (n + 1) s = M.run n t := by
  simp [Host.Core.run, h]

theorem coreRun_succ_next (h : M.run (n + 1) s = .next t) : ∃ u, M.step s = .next u := by
  cases hstep : M.step s with
  | next u => exact ⟨u, rfl⟩
  | fault r => simp [Host.Core.run, hstep] at h
  | refused r => simp [Host.Core.run, hstep] at h

end HostCore

/-- `n` successive steps, over the machine's own types: `Core.run` of the host's interface, which O58 and O59 speak of. -/
def stepTimes (n : Nat) (s : State) : StepOutcome := Host.Core.run core n s

section Run

variable {s t : State}

theorem stepTimes_zero (s : State) : stepTimes 0 s = .next s := rfl

/-- Steps after a first one are steps from the state it leaves. -/
theorem stepTimes_succ_of_next {n : Nat} (h : step s = .next t) : stepTimes (n + 1) s = stepTimes n t :=
  coreRun_succ_of_next (M := core) h

/-- Repeated steps complete only where the first step does. -/
theorem stepTimes_succ_next {n : Nat} (h : stepTimes (n + 1) s = .next t) : ∃ u, step s = .next u :=
  coreRun_succ_next (M := core) h

/-- Steps of a stopped machine, any number of them, change nothing (R79). -/
theorem stepTimes_of_stopped (hs : s.status ≠ .ok) (n : Nat) : stepTimes n s = .next s := by
  induction n with
  | zero => rfl
  | succ n ih => exact (stepTimes_succ_of_next (step_of_stopped hs)).trans ih

theorem runSteps_succ_of_ok {left done : Nat} (h : step s = .next t) (ht : t.status = .ok) :
    runSteps (left + 1) done s = runSteps left (done + 1) t := by
  simp [runSteps, h, stepReturns, ht]

theorem runSteps_succ_of_stopped {left done : Nat} (h : step s = .next t) (ht : t.status ≠ .ok) :
    runSteps (left + 1) done s = .next (t, failureCount (done + 1) t.status) := by
  simp [runSteps, h, stepReturns, ht]

/-- A run completes only where its first step does. -/
theorem runSteps_succ_next {left done : Nat} {p : State × Word} (h : runSteps (left + 1) done s = .next p) :
    ∃ u, step s = .next u := by
  cases hstep : step s with
  | next u => exact ⟨u, rfl⟩
  | fault r => simp [runSteps, hstep] at h
  | refused r => simp [runSteps, hstep] at h

/-- Stopping at the first step that fails leaves the state all the steps would leave. -/
theorem runSteps_iff_stepTimes (left done : Nat) :
    (∃ k, runSteps left done s = .next (t, k)) ↔ stepTimes left s = .next t := by
  induction left generalizing done s with
  | zero => simp [runSteps, stepTimes_zero]
  | succ left ih =>
    by_cases hnext : ∃ u, step s = .next u
    · obtain ⟨u, hu⟩ := hnext
      rw [stepTimes_succ_of_next hu]
      by_cases hok : u.status = .ok
      · rw [runSteps_succ_of_ok hu hok]
        exact ih (done + 1)
      · rw [runSteps_succ_of_stopped hu hok, stepTimes_of_stopped hok]
        simp
    · exact iff_of_false (fun ⟨_, h⟩ => hnext (runSteps_succ_next h)) fun h => hnext (stepTimes_succ_next h)

theorem run_of_nonpos {n : Word} (h : n.toInt ≤ 0) : run n s = .next (s, 0) := if_pos h

theorem run_of_pos {n : Word} (h : 0 < n.toInt) : run n s = runSteps n.toInt.toNat 0 s := if_neg (not_le.mpr h)

end Run

/-- Settles O58: for n = 0 neither steps; else the run controller takes the steps that are left. -/
theorem runIsRepeatedStepping : Obligations.RunIsRepeatedStepping := by
  intro n s t hn
  obtain hzero | hpos := hn.eq_or_lt
  · rw [run_of_nonpos hzero.ge, ← hzero]
    change _ ↔ stepTimes 0 s = .next t
    simp [stepTimes_zero]
  · rw [run_of_pos hpos]
    exact runSteps_iff_stepTimes _ 0

/-- Each of the first `j` steps from a state leaves status OK. -/
def State.StaysOk (s : State) (j : Nat) : Prop :=
  ∀ i, 1 ≤ i → i ≤ j → ∃ u : State, stepTimes i s = .next u ∧ u.status = .ok

/-- How a run of `left` steps ends that completes, after `done` steps before it: the state and the count it leaves. -/
inductive RunEnd (left done : Nat) (s : State) : State → Word → Prop
  /-- Every step succeeded. -/
  | succeeded {t : State} (steps : stepTimes left s = .next t) (good : s.StaysOk left) :
      RunEnd left done s t (wrap32 ((done + left : Nat) : Int))
  /-- The step of index `j + 1` was the first to fail. -/
  | failed {t : State} (j : Nat) (lt : j < left) (steps : stepTimes (j + 1) s = .next t) (good : s.StaysOk j)
      (status : t.status ≠ .ok) : RunEnd left done s t (failureCount (done + (j + 1)) t.status)

section RunEnd

variable {s t : State} {k : Word}

theorem staysOk_zero (s : State) : s.StaysOk 0 := fun _ h1 h0 => absurd h1 (by omega)

/-- A successful step before `j` successful ones. -/
theorem State.StaysOk.succ {u : State} {j : Nat} (hu : step s = .next u) (hok : u.status = .ok) (h : u.StaysOk j) :
    s.StaysOk (j + 1) := by
  intro i h1 hj
  obtain ⟨i, rfl⟩ := Nat.exists_eq_add_of_le' h1
  rw [stepTimes_succ_of_next hu]
  obtain rfl | hpos := Nat.eq_zero_or_pos i
  · exact ⟨u, rfl, hok⟩
  · exact h i hpos (Nat.le_of_succ_le_succ hj)

/-- A successful step before a run. -/
theorem RunEnd.succ {u : State} {left done : Nat} (hu : step s = .next u) (hok : u.status = .ok)
    (h : RunEnd left (done + 1) u t k) : RunEnd (left + 1) done s t k := by
  cases h with
  | succeeded steps good =>
    rw [Nat.add_right_comm]
    exact .succeeded ((stepTimes_succ_of_next hu).trans steps) (good.succ hu hok)
  | failed j lt steps good status =>
    rw [Nat.add_right_comm]
    exact .failed (j + 1) (Nat.succ_lt_succ lt) ((stepTimes_succ_of_next hu).trans steps) (good.succ hu hok) status

/-- How any run ends. -/
theorem runSteps_end {left done : Nat} (h : runSteps left done s = .next (t, k)) : RunEnd left done s t k := by
  induction left generalizing done s with
  | zero =>
    cases h
    exact .succeeded rfl (staysOk_zero _)
  | succ left ih =>
    obtain ⟨u, hu⟩ := runSteps_succ_next h
    by_cases hok : u.status = .ok
    · exact (ih (runSteps_succ_of_ok hu hok ▸ h)).succ hu hok
    · cases (runSteps_succ_of_stopped hu hok).symm.trans h
      exact .failed 0 (Nat.succ_pos left) (stepTimes_succ_of_next hu) (staysOk_zero s) hok

end RunEnd

/-- An integer that a word can hold is not changed by the narrowing. -/
theorem toInt_wrap32_of_bounds {v : Int} (hlo : -(2 ^ 31) ≤ v) (hhi : v < 2 ^ 31) : (wrap32 v).toInt = v := by
  rw [toInt_wrap32]
  exact Int.bmod_eq_of_le (by omega) (by omega)

/-- The count of a failing step is its index, positive for HALTED and negative for an error. -/
theorem toInt_failureCount {j : Nat} (hj : (j : Int) < 2 ^ 31) (status : Status) :
    (failureCount j status).toInt = if status = .halted then (j : Int) else -j := by
  unfold failureCount
  split <;> exact toInt_wrap32_of_bounds (by omega) (by omega)

/-- Settles O59: the index is n where every step succeeded, else that of the first failing step. -/
theorem runCountsItsSteps : Obligations.RunCountsItsSteps := by
  refine ⟨fun _ _ => run_of_nonpos, fun n k s t hpos h => ?_⟩
  have hn : n.toInt < 2 ^ 31 := BitVec.toInt_lt
  rw [run_of_pos hpos] at h
  cases runSteps_end h with
  | succeeded steps good =>
    have hj : 1 ≤ n.toInt.toNat := by omega
    obtain ⟨u, hu, hok⟩ := good _ hj le_rfl
    cases steps.symm.trans hu
    refine ⟨n.toInt.toNat, hj, by omega, steps, fun i h1 hi => good i h1 hi.le, fun _ => ⟨by omega, ?_⟩,
      fun hhalt => absurd (hok.symm.trans hhalt) nofun, fun hbad => absurd hok hbad⟩
    rw [Nat.zero_add]
    exact toInt_wrap32_of_bounds (by omega) (by omega)
  | failed j lt steps good status =>
    have hcount := toInt_failureCount (j := 0 + (j + 1)) (by omega) t.status
    rw [Nat.zero_add] at hcount ⊢
    refine ⟨j + 1, by omega, by omega, steps, fun i h1 hi => good i h1 (by omega), fun hok => absurd hok status,
      fun hhalt => ?_, fun _ hhalt => ?_⟩
    · rw [hcount, if_pos hhalt]
    · rw [hcount, if_neg hhalt]

end Sys2Proof.Machine


/-! The statements about `add`, `sub`, `mul`, `div`, `inc` and `dec` (41_arithmetic.md R93 to R99). -/

namespace Sys2Proof.Machine

/-! ### Integer laws (R93) -/

/-- The model's truncated quotient is `tdiv` as R93 spells it. -/
theorem tdiv_eq_sign_mul_natAbs (a b : Int) : a.tdiv b = a.sign * b.sign * ((a.natAbs / b.natAbs : Nat) : Int) := by
  have habs : (a.tdiv b).natAbs = a.natAbs / b.natAbs := Int.natAbs_tdiv a b
  rw [← Int.sign_mul_natAbs (a.tdiv b), habs, Int.sign_tdiv]
  split
  · next hlt => simp [Nat.div_eq_of_lt hlt]
  · rfl

/-- Only the word 0 passes the zero test of R34. -/
theorem zeroTest_eq_true_iff {w : Word} : zeroTest w = true ↔ w = 0 := by
  rw [zeroTest, decide_eq_true_iff, ← BitVec.toInt_inj]
  rfl

/-! ### Handlers that write one register (R94 to R99) -/

section OneRegister

variable {s : State} {o : StepOutcome}

/-- An outcome whose next state keeps the status is a success of a running machine (R87). -/
theorem exists_next_of_status_eq {t : State} (h : o = .next t) (hstatus : t.status = s.status) :
    ∃ u, o = .next u ∧ u = t ∧ (s.status = .ok → stepReturns u = true) :=
  ⟨t, h, rfl, fun hs => decide_eq_true (hstatus.trans hs)⟩

/-- A handler whose one write is a register's writes that register and the pointer. -/
theorem succeed_register (w : Nat) (r : Reg) (v : Word) (s : State) :
    succeed w { wr0 := some (r, v) } s = .next { s with regs := s.regs.set r v, ip := wrap32 (s.ip.toInt + w) } := rfl

/-- `A <- A op x[reg]`: the exact result narrowed (R94 to R97). -/
theorem next_of_accumulate {op : AluOp} {r : Reg} (h : o = accumulate op r s) : ∃ t,
    o = .next t ∧
    t = { s with
      regs := s.regs.set .A (wrap32 (op.exact s.regs.a.toInt (s.regs.get r).toInt))
      ip := wrap32 (s.ip.toInt + 2) } ∧
    (s.status = .ok → stepReturns t = true) :=
  exists_next_of_status_eq (h.trans (succeed_register 2 .A _ s)) rfl

/-- `x[reg] <- x[reg] op 1`: the exact result narrowed (R98, R99). -/
theorem next_of_count {op : AluOp} {r : Reg} (h : o = count op r s) : ∃ t,
    o = .next t ∧
    t = { s with
      regs := s.regs.set r (wrap32 (op.exact (s.regs.get r).toInt 0))
      ip := wrap32 (s.ip.toInt + 2) } ∧
    (s.status = .ok → stepReturns t = true) :=
  exists_next_of_status_eq (h.trans (succeed_register 2 r _ s)) rfl

/-- A valid register that does not hold 0 divides A (R97). -/
theorem execDiv_nonzero {r : Reg} (h : s.regs.get r ≠ 0) : execDiv r.index s = accumulate .div r s := by
  have hzero : ¬ (aluAt .div s.regs.a (s.regs.get r) s).bIsZero = true := fun hz => h (zeroTest_eq_true_iff.mp hz)
  rw [execDiv, withReg_index, if_neg hzero]

end OneRegister

/-! ### The instructions (R94 to R99) -/

/-- Settles O11: a divisor that is not 0 gives the truncated quotient, and R93's spelling of it is the model's. -/
theorem divTruncatesOrRaisesDivByZero : Obligations.DivTruncatesOrRaisesDivByZero := by
  refine ⟨fun s r hr => ?_, fun _ _ => execDiv_zero, fun _ _ => exec_invalid_operand (List.mem_singleton_self _),
    fun _ => rfl⟩
  rw [← tdiv_eq_sign_mul_natAbs]
  exact next_of_accumulate (op := .div) (execDiv_nonzero hr)

/-- Settles O8: `add` accumulates the exact sum. -/
theorem addStoresTheWrappedSum : Obligations.AddStoresTheWrappedSum :=
  ⟨fun s r => next_of_accumulate (op := .add) (withReg_index r s _),
    fun _ _ => exec_invalid_operand (List.mem_singleton_self _), fun _ => rfl⟩

/-- Settles O9: `sub` accumulates the exact difference. -/
theorem subStoresTheWrappedDifference : Obligations.SubStoresTheWrappedDifference :=
  ⟨fun s r => next_of_accumulate (op := .sub) (withReg_index r s _),
    fun _ _ => exec_invalid_operand (List.mem_singleton_self _), fun _ => rfl⟩

/-- Settles O10: `mul` accumulates the exact product. -/
theorem mulStoresTheWrappedProduct : Obligations.MulStoresTheWrappedProduct :=
  ⟨fun s r => next_of_accumulate (op := .mul) (withReg_index r s _),
    fun _ _ => exec_invalid_operand (List.mem_singleton_self _), fun _ => rfl⟩

/-- Settles O12: `inc` counts its register up. -/
theorem incAddsOneToItsRegister : Obligations.IncAddsOneToItsRegister :=
  ⟨fun s r => next_of_count (op := .inc) (withReg_index r s _),
    fun _ _ => exec_invalid_operand (List.mem_singleton_self _), fun _ => rfl⟩

/-- Settles O13: `dec` counts its register down. -/
theorem decSubtractsOneFromItsRegister : Obligations.DecSubtractsOneFromItsRegister :=
  ⟨fun s r => next_of_count (op := .dec) (withReg_index r s _),
    fun _ _ => exec_invalid_operand (List.mem_singleton_self _), fun _ => rfl⟩

end Sys2Proof.Machine


/-! The statements about `nop`, `halt` and `loop` (42_control_flow.md R100 to R102). -/

namespace Sys2Proof.Machine

section Pointer

variable {s : State}

/-- A success that drives no write enable moves the pointer alone. -/
theorem succeed_nothing (w : Nat) (s : State) : succeed w {} s = .next { s with ip := wrap32 (s.ip.toInt + w) } := rfl

/-- `halt` advances past itself and leaves HALTED. -/
theorem execHalt_eq (s : State) :
    execHalt s = .next { s with status := .halted, ip := wrap32 (s.ip.toInt + 1) } := rfl

/-- A `loop` that is not taken advances past its two cells. -/
theorem execLoop_not_taken {index : Word} (h : s.regs.c.toInt = 0) :
    execLoop index s = .next { s with ip := wrap32 (s.ip.toInt + 2) } := by
  have hzero : (aluOps .add 0 0 s.regs.c).cIsZero = true := decide_eq_true h
  rw [execLoop, if_pos hzero]
  exact succeed_nothing 2 s

/-- A pointer outside the instruction region, however it got there, is caught by the fetch (R80). -/
theorem step_of_ip_outside {index : Word} (hs : s.status = .ok)
    (hout : ¬ (0 ≤ index.toInt ∧ index.toInt < (s.roof : Int))) :
    step { s with ip := index } = .next { s with ip := index, status := .invalidAddress } := by
  have hr : ¬ { s with ip := index }.InRegion := hout
  exact step_of_raised (fetchDecode_outside hs hr)

end Pointer

/-- Settles O14: `nop` commits nothing but its advance. -/
theorem nopOnlyAdvances : Obligations.NopOnlyAdvances :=
  ⟨fun s => exists_next_of_status_eq (succeed_nothing 1 s) rfl, rfl⟩

/-- Settles O15: HALTED is not OK, so the step returns false and the next one finds a stopped machine. -/
theorem haltStopsTheMachine : Obligations.HaltStopsTheMachine := by
  refine ⟨fun s => ⟨_, execHalt_eq s, rfl, ?_⟩, rfl⟩
  have hstopped : Status.halted ≠ .ok := nofun
  exact ⟨decide_eq_false hstopped, step_of_stopped hstopped⟩

/-- Settles O16: neither way of `loop` checks its target, so a bad one is left to the fetch of the next step. -/
theorem loopBranchesWhileCIsNotZero : Obligations.LoopBranchesWhileCIsNotZero :=
  ⟨fun _ _ hc => exists_next_of_status_eq (execLoop_taken hc) rfl,
    fun _ _ hc => exists_next_of_status_eq (execLoop_not_taken hc) rfl,
    fun _ _ => step_of_ip_outside, fun _ => rfl⟩

end Sys2Proof.Machine


/-! The statements about `movr` and `swap` (43_data_movement.md R104, R105). -/

namespace Sys2Proof.Machine

/-- Exchanging two registers by two writes gives the first the second's old value: the later write keeps it, also where the
two are one register. -/
theorem Regs.get_exchange_left (x : Regs) (r1 r2 : Reg) :
    ((x.set r1 (x.get r2)).set r2 (x.get r1)).get r1 = x.get r2 := by
  by_cases h : r1 = r2
  · subst h
    exact get_set_same _ _ _
  · rw [get_set_of_ne _ _ h, get_set_same]

/-- Two writes leave the registers they do not name. -/
theorem Regs.get_set_set_of_ne (x : Regs) {r1 r2 q : Reg} (v w : Word) (h1 : q ≠ r1) (h2 : q ≠ r2) :
    ((x.set r1 v).set r2 w).get q = x.get q := by
  rw [get_set_of_ne _ _ h2, get_set_of_ne _ _ h1]

/-- A valid `movr` writes its immediate to its register and advances past its three cells (R104). -/
theorem execMovr_index (r : Reg) (num : Word) (s : State) :
    execMovr r.index num s = .next { s with regs := s.regs.set r num, ip := wrap32 (s.ip.toInt + 3) } :=
  (withReg_index r s _).trans (succeed_register 3 r num s)

/-- A valid `swap` writes each register's old value to the other and advances past its three cells (R105). -/
theorem execSwap_index (r1 r2 : Reg) (s : State) :
    execSwap r1.index r2.index s = .next { s with
      regs := (s.regs.set r1 (s.regs.get r2)).set r2 (s.regs.get r1)
      ip := wrap32 (s.ip.toInt + 3) } :=
  (withReg_index r1 s _).trans (withReg_index r2 s _)

/-- Settles O17: a valid `movr` has the one register write of its immediate. -/
theorem movrStoresItsImmediate : Obligations.MovrStoresItsImmediate :=
  ⟨fun s r num => exists_next_of_status_eq (execMovr_index r num s) rfl,
    fun _ _ _ => exec_invalid_operand (List.mem_singleton_self _), fun _ _ => rfl⟩

/-- Settles O18: both ports carry values read before either write, so each register ends with the other's old one. -/
theorem swapExchangesTwoRegisters : Obligations.SwapExchangesTwoRegisters := by
  refine ⟨fun s r1 r2 => ?_, fun _ _ _ => execSwap_invalid, fun _ _ => rfl⟩
  obtain ⟨t, hnext, rfl, hreturns⟩ := exists_next_of_status_eq (execSwap_index r1 r2 s) rfl
  exact ⟨_, hnext, rfl, Regs.get_exchange_left s.regs r1 r2, Regs.get_set_same _ r2 _,
    fun _ => Regs.get_set_set_of_ne s.regs _ _, hreturns⟩

end Sys2Proof.Machine


/-! The statements about the stack and frame accesses (44_stack.md): `load` and `store` (R106 to R109), `push` and `pop` (R110,
R111), and what a machine's window makes of them. -/

namespace Sys2Proof.Machine

/-! ### Where every check passes (R106, R108 to R111) -/

section Valid

variable {s : State}

/-- The shape `load`, `store`, `push` and `pop` share, where the register, the stack request and the cell are all there: the
handler goes on with the register, the checker's answer and the cell. -/
theorem stackAccess_valid {req : StackReq} {num : Word} {addr : Int} (r : Reg)
    {k : Reg → StackOut → Nat → Word → StepOutcome}
    (hvalid : (stackCheck req (translator s num).dPlusNum (translator s num).frameAddr s).stackOk = true)
    (hcell : s.hasCell addr = true) :
    (withReg r.index s fun r => withStack req num s fun out => withCell s addr fun a v => k r out a v) =
      k r (stackCheck req (translator s num).dPlusNum (translator s num).frameAddr s) addr.toNat
        (s.mem.read addr.toNat) := by
  rw [withReg_index, withStack_valid hvalid, withCell, if_pos hcell]

/-- A valid frame access passes the checker's test. -/
theorem frameOk_of_frameValid {num : Word} (h : s.FrameValid num) :
    frameOk s (translator s num).dPlusNum (translator s num).frameAddr = true :=
  frameOk_iff.mpr h

/-- A valid `load` writes the frame cell, addressed by the old D, to its register (R108). -/
theorem execLoad_valid {r : Reg} {num : Word} (h : s.FrameValid num) :
    execLoad r.index num s = .next { s with
      regs := s.regs.set r (s.mem.read (translator s num).frameAddr.toNat)
      ip := wrap32 (s.ip.toInt + 3) } :=
  have hok := frameOk_of_frameValid h
  stackAccess_valid r hok (hasCell_frameAddr hok)

/-- A valid `store` writes its register to the frame cell (R109). -/
theorem execStore_valid {r : Reg} {num : Word} (h : s.FrameValid num) :
    execStore r.index num s = .next { s with
      mem := s.mem.write (translator s num).frameAddr.toNat (s.regs.get r)
      ip := wrap32 (s.ip.toInt + 3) } :=
  have hok := frameOk_of_frameValid h
  stackAccess_valid r hok (hasCell_frameAddr hok)

/-- A `push` with room writes its register to the cell `BOTTOM - size`, which becomes the head (R110). -/
theorem execPush_room {r : Reg} (h : (s.roof : Int) ≤ (s.bottom : Int) - s.size) :
    execPush r.index s = .next { s with
      mem := s.mem.write ((s.bottom : Int) - s.size).toNat (s.regs.get r)
      top := ((s.bottom : Int) - s.size).toNat
      size := s.size + 1
      ip := wrap32 (s.ip.toInt + 2) } :=
  stackAccess_valid r (decide_eq_true (not_lt.mpr h)) (hasCell_pushAddr h)

/-- A `pop` of a head in the image reads it to its register, zeroes it and leaves it (R111). -/
theorem execPop_live {r : Reg} (hlive : 0 < s.size) (htop : s.top ≤ s.bottom) :
    execPop r.index s = .next { s with
      regs := s.regs.set r (s.mem.read s.top)
      mem := s.mem.write s.top 0
      top := if 1 < s.size then s.top + 1 else s.top
      size := s.size - 1
      ip := wrap32 (s.ip.toInt + 2) } := by
  refine stackAccess_valid r (decide_eq_true (Nat.ne_of_gt hlive)) (hasCell_iff.mpr ?_)
  rw [State.memCells]
  omega

/-- A success that wrote one cell: what that cell reads as, what every other does, and what the step returns. -/
theorem reads_of_cellWrite {t : State} {a : Nat} {v : Word} (hmem : t.mem = s.mem.write a v)
    (hstatus : t.status = s.status) :
    (s.mem.wf → t.mem.read a = v) ∧ (∀ b, b ≠ a → t.mem.read b = s.mem.read b) ∧
      (s.status = .ok → stepReturns t = true) := by
  rw [hmem]
  exact ⟨fun hm => Memory.read_write_same hm a v, fun _ => Memory.read_write_of_ne _ v,
    fun hs => decide_eq_true (hstatus.trans hs)⟩

end Valid

/-! ### The window of a machine (R26, R27) -/

section Window

variable {s : State} (hs : s.Inv)
include hs

/-- A machine with a live stack cell has a stack (R25). -/
theorem State.Inv.hasStack_of_live (hlive : 0 < s.size) : s.hasStack = true :=
  hs.sizes.hasStack_iff.mpr (hlive.trans_le hs.stack.size_le)

/-- The largest image ends below what a word can address (R6). -/
theorem State.Inv.bottom_lt : (s.bottom : Int) < 2 ^ 31 := by
  have hmax : s.bottom + 1 ≤ 2 ^ 31 - 1024 := hs.sizes.bound
  omega

/-- With a live stack, `frame_ok` is a bound on the exact sum alone (R106). -/
theorem State.Inv.frameValid_iff (hlive : 0 < s.size) {num : Word} :
    s.FrameValid num ↔ 0 ≤ s.regs.d.toInt + num.toInt ∧ (s.top : Int) + (s.regs.d.toInt + num.toInt) ≤ s.bottom := by
  rw [← Int.add_assoc]
  exact ⟨fun ⟨_, _, hlo, hhi⟩ => ⟨hlo, hhi⟩, fun ⟨hlo, hhi⟩ => ⟨hs.hasStack_of_live hlive, hlive, hlo, hhi⟩⟩

/-- A `push` fails exactly where the stack is full (R110). -/
theorem State.Inv.pushFails_iff_full : (s.bottom : Int) - s.size < (s.roof : Int) ↔ s.size = s.stackCap := by
  have hsize := hs.stack.size_le
  have hroof := hs.sizes.roof_le
  simp only [State.stackCap, State.memCells] at hsize hroof ⊢
  omega

/-- Below capacity there is room to push. -/
theorem State.Inv.room_of_not_full (hroom : s.size < s.stackCap) : (s.roof : Int) ≤ (s.bottom : Int) - s.size :=
  not_lt.mp (mt hs.pushFails_iff_full.mp (Nat.ne_of_lt hroom))

/-- The cell a push takes is vacant, so it reads 0 (R27). -/
theorem State.Inv.read_pushAddr (hroom : (s.roof : Int) ≤ (s.bottom : Int) - s.size) :
    s.mem.read ((s.bottom : Int) - s.size).toNat = 0 := by
  have htop := hs.stack.top_eq
  refine hs.image.vacant_zero _ ⟨?_, ?_, ?_⟩ <;> omega

/-- The head a `pop` finds after a `push` moves back to where it was (R112). -/
theorem State.Inv.top_of_push_pop (hroom : (s.roof : Int) ≤ (s.bottom : Int) - s.size) :
    (if 1 < s.size + 1 then ((s.bottom : Int) - s.size).toNat + 1 else ((s.bottom : Int) - s.size).toNat) = s.top := by
  have htop := hs.stack.top_eq
  split <;> omega

end Window

/-- In a canonical image, zeroing a cell that was written gives the image back, if the cell was 0 before. -/
theorem Memory.write_write_zero {m : Memory} (hm : m.wf) {a : Nat} (v : Word) (hzero : m.read a = 0) :
    (m.write a v).write a 0 = m := by
  have hwritten := wf_write hm a v
  refine ext_read (wf_write hwritten a 0) hm fun b => ?_
  obtain rfl | hne := eq_or_ne b a
  · rw [read_write_same hwritten, hzero]
  · rw [read_write_of_ne _ _ hne, read_write_of_ne _ _ hne]

/-! ### A frame sum that wraps (R107) -/

/-- The narrowing forgets a multiple of 2^32. -/
theorem wrap32_add_modulus (v : Int) : wrap32 (v + 2 ^ 32) = wrap32 v := by
  rw [← BitVec.toInt_inj, toInt_wrap32, toInt_wrap32]
  exact Int.add_bmod_right v (2 ^ 32)

/-- The sum of two words needs 33 bits. -/
theorem toInt_add_toInt_bounds (v w : Word) :
    -(2 ^ 32) ≤ v.toInt + w.toInt ∧ v.toInt + w.toInt < 2 ^ 32 := by
  have hv : -2 ^ 31 ≤ v.toInt := BitVec.le_toInt v
  have hw : -2 ^ 31 ≤ w.toInt := BitVec.le_toInt w
  have hv' : v.toInt < 2 ^ 31 := BitVec.toInt_lt
  have hw' : w.toInt < 2 ^ 31 := BitVec.toInt_lt
  omega

/-- A window shorter than 2^31 is met by a 33-bit sum and by its narrowing alike, but for the sums that wrap upwards into it. -/
theorem wrap32_differs_iff {top bottom sum : Int} (hlen : bottom - top < 2 ^ 31) (hlo : -(2 ^ 32) ≤ sum)
    (hhi : sum < 2 ^ 32) :
    ((0 ≤ (wrap32 sum).toInt ∧ top + (wrap32 sum).toInt ≤ bottom) ↔ ¬ (0 ≤ sum ∧ top + sum ≤ bottom)) ↔
      (0 ≤ sum + 2 ^ 32 ∧ sum + 2 ^ 32 ≤ bottom - top) := by
  obtain hbelow | hword | habove : sum < -(2 ^ 31) ∨ (-(2 ^ 31) ≤ sum ∧ sum < 2 ^ 31) ∨ 2 ^ 31 ≤ sum := by omega
  · have hwrap : (wrap32 sum).toInt = sum + 2 ^ 32 := by
      rw [← wrap32_add_modulus]
      exact toInt_wrap32_of_bounds (by omega) (by omega)
    omega
  · have hwrap : (wrap32 sum).toInt = sum := toInt_wrap32_of_bounds hword.1 hword.2
    omega
  · have hwrap : (wrap32 sum).toInt = sum - 2 ^ 32 := by
      rw [← Int.sub_add_cancel sum (2 ^ 32), wrap32_add_modulus, Int.sub_add_cancel]
      exact toInt_wrap32_of_bounds (by omega) (by omega)
    omega

/-! ### The instructions (R108 to R111) -/

/-- Settles O19: the register write of a valid `load`, and the error of any other. -/
theorem loadReadsTheFrameCell : Obligations.LoadReadsTheFrameCell :=
  ⟨fun _ _ _ h => exists_next_of_status_eq (execLoad_valid h) rfl, fun _ r num h => exec_ownError (.load r num h),
    fun _ _ _ => exec_invalid_operand (List.mem_singleton_self _), fun _ _ => rfl⟩

/-- Settles O20: the cell write of a valid `store`, and the error of any other. -/
theorem storeWritesTheFrameCell : Obligations.StoreWritesTheFrameCell :=
  ⟨fun _ _ _ h => ⟨_, execStore_valid h, rfl, reads_of_cellWrite rfl rfl⟩,
    fun _ r num h => exec_ownError (.store r num h),
    fun _ _ _ => exec_invalid_operand (List.mem_singleton_self _), fun _ _ => rfl⟩

/-- Settles O21: the cell write of a `push` with room, the error of any other, and R24's count of the stack's cells. -/
theorem pushWritesTheNewHead : Obligations.PushWritesTheNewHead :=
  ⟨fun _ _ h => ⟨_, execPush_room h, rfl, reads_of_cellWrite rfl rfl⟩,
    fun _ r h => exec_ownError (.push r h), fun _ hs => hs.pushFails_iff_full,
    fun _ _ => exec_invalid_operand (List.mem_singleton_self _), fun _ => rfl⟩

/-- Settles O22: the register write and the zeroing of a `pop` from a live stack, and the error on an empty one. -/
theorem popReadsAndZeroesTheHead : Obligations.PopReadsAndZeroesTheHead :=
  ⟨fun _ _ hlive htop => ⟨_, execPop_live hlive htop, rfl, reads_of_cellWrite rfl rfl⟩,
    fun _ r h => exec_ownError (.pop r h),
    fun _ _ => exec_invalid_operand (List.mem_singleton_self _), fun _ => rfl⟩

/-- Settles O24: the popped cell is the pushed one, which was 0 before, and the head moves back. -/
theorem popUndoesPush : Obligations.PopUndoesPush := by
  intro s r q hs hroom
  have hroom := hs.room_of_not_full hroom
  refine ⟨_, _, execPush_room hroom, execPop_live (Nat.succ_pos s.size) ?_, ?_⟩
  · exact Int.toNat_le.mpr (Int.sub_le_self _ (Int.natCast_nonneg _))
  · simp only [Memory.read_write_same hs.image.canonical, hs.top_of_push_pop hroom, Nat.add_sub_cancel,
      Memory.write_write_zero hs.image.canonical _ (hs.read_pushAddr hroom)]

/-! ### The live window (R106, R107) -/

/-- Settles O25: `frame_ok` is the two bounds of the window, which lies in the stack region; the displacement of a window
cell from the head is short enough for a word. -/
theorem frameAccessMeetsTheLiveWindow : Obligations.FrameAccessMeetsTheLiveWindow := by
  refine ⟨fun s num hs hvalid => ?_, fun s a hs hlive hd hlo hhi => ?_⟩
  · obtain ⟨hyes, -, hlo, hhi⟩ := frameAddr_live (frameOk_of_frameValid hvalid)
    obtain ⟨-, hroof, -⟩ := stackBoundsOfAMachine s hs
    obtain ⟨-, -, hsum, -⟩ := hvalid
    refine ⟨(translator s num).frameAddr.toNat, Int.toNat_of_nonneg ?_, hlo, hhi, (hroof hyes).trans hlo,
      Nat.lt_succ_of_le hhi⟩
    simp only [translator]
    omega
  · have hbottom := hs.bottom_lt
    have hnum : (wrap32 ((a : Int) - s.top)).toInt = a - s.top := toInt_wrap32_of_bounds (by omega) (by omega)
    have hzero : s.regs.d.toInt = 0 := by rw [hd]; rfl
    rw [hs.frameValid_iff hlive, hnum, hzero]
    omega

/-- Settles O26: only a sum below -2^31 can wrap upwards into the window, and the exact check rejects it. -/
theorem frameSumIsExactInTheWrappingBand : Obligations.FrameSumIsExactInTheWrappingBand := by
  intro s num hs hlive
  refine ⟨?_, fun hbelow r => exec_ownError (.load r num ?_)⟩
  · obtain ⟨hlo, hhi⟩ := toInt_add_toInt_bounds s.regs.d num
    have hbottom := hs.bottom_lt
    rw [hs.frameValid_iff hlive]
    exact wrap32_differs_iff (by omega) hlo hhi
  · rintro ⟨-, -, hsum, -⟩
    omega

end Sys2Proof.Machine


/-! The statements about the I/O port and its four instructions (45_io.md): the default token grammar (R114), what the output
requests append (R116), and `in`, `get`, `out`, `put` (R117 to R121) on a device that answers and on one that does not
(R113). -/

namespace Sys2Proof

/-! ### Strings of digits (R114, R116) -/

/-- A digit appended to a decimal is its new last place. -/
theorem decimalValue_append_singleton (ds : List Byte) (b : Byte) :
    decimalValue (ds ++ [b]) = 10 * decimalValue ds + (b.toNat - 0x30) := by
  simp [decimalValue]

theorem decimalValue_singleton (b : Byte) : decimalValue [b] = b.toNat - 0x30 := by
  simp [decimalValue]

end Sys2Proof

namespace Sys2Proof.Machine

/-! ### The signed decimals of a token (R114) -/

section Decimal

variable {sign ds t : List Byte} {m v : Int}

/-- A non-empty run of digit bytes, the `[0-9]+` of R114. -/
def IsDigits (ds : List Byte) : Prop := ds ≠ [] ∧ ds.all isDigitByte = true

/-- The optional sign `[+-]?` of R114, with the factor it stands for. -/
def SignFactor (sign : List Byte) (m : Int) : Prop :=
  sign = [] ∧ m = 1 ∨ sign = [0x2B] ∧ m = 1 ∨ sign = [0x2D] ∧ m = -1

theorem digitsValue_eq_foldl (acc : Nat) (ds : List Byte) :
    digitsValue acc ds = ds.foldl (fun n b => 10 * n + (b.toNat - 0x30)) acc := by
  induction ds generalizing acc with
  | nil => rfl
  | cons b bs ih => exact ih _

/-- The grammar reads a run of digits as the decimal it writes. -/
theorem unsignedValue_eq_some_iff {n : Nat} : unsignedValue t = some n ↔ IsDigits t ∧ decimalValue t = n := by
  rw [unsignedValue, digitsValue_eq_foldl]
  split
  · next hdigits => simp [IsDigits, hdigits, decimalValue]
  · next hno => exact iff_of_false nofun fun ⟨hdigits, _⟩ => hno hdigits

theorem isSpaceByte_of_digit {b : Byte} (h : isDigitByte b = true) : isSpaceByte b = false := by
  simp only [isDigitByte, isSpaceByte, decide_eq_true_eq, decide_eq_false_iff_not] at h ⊢
  bv_omega

/-- The sign is split off first, and only where there is one: a token without a sign begins with neither sign byte. -/
structure SplitsSign (t sign ds : List Byte) (m : Int) : Prop where
  token_eq : t = sign ++ ds
  factor : SignFactor sign m
  no_sign : sign = [] → ds.head? ≠ some 0x2B ∧ ds.head? ≠ some 0x2D

theorem exists_splitsSign (t : List Byte) : ∃ sign ds m, SplitsSign t sign ds m := by
  match t with
  | [] => exact ⟨[], [], 1, rfl, .inl ⟨rfl, rfl⟩, fun _ => ⟨nofun, nofun⟩⟩
  | b :: t =>
    by_cases hplus : b = 0x2B
    · exact ⟨[b], t, 1, rfl, .inr (.inl ⟨by rw [hplus], rfl⟩), nofun⟩
    by_cases hminus : b = 0x2D
    · exact ⟨[b], t, -1, rfl, .inr (.inr ⟨by rw [hminus], rfl⟩), nofun⟩
    · exact ⟨[], b :: t, 1, rfl, .inl ⟨rfl, rfl⟩, fun _ =>
        ⟨mt Option.some.inj hplus, mt Option.some.inj hminus⟩⟩

/-- A token has the value of what follows the sign, times the sign's factor. -/
theorem tokenValue_of_splitsSign (h : SplitsSign t sign ds m) :
    tokenValue t = (unsignedValue ds).map fun n : Nat => m * n := by
  obtain ⟨rfl, ⟨rfl, rfl⟩ | ⟨rfl, rfl⟩ | ⟨rfl, rfl⟩, hno⟩ := h
  · cases ds with
    | nil => rfl
    | cons b bs =>
      obtain ⟨hplus, hminus⟩ := hno rfl
      rw [List.nil_append, tokenValue, if_neg (mt (congrArg some) hplus), if_neg (mt (congrArg some) hminus)]
      cases unsignedValue (b :: bs) <;> simp
  · rw [List.singleton_append, tokenValue, if_pos rfl]
    cases unsignedValue ds <;> simp
  · rw [List.singleton_append, tokenValue, if_neg (by decide), if_pos rfl]
    cases unsignedValue ds <;> simp

/-- Digits are no sign, so a signed decimal splits before its digits. -/
theorem splitsSign_signed (hsign : SignFactor sign m) (hdigits : IsDigits ds) : SplitsSign (sign ++ ds) sign ds m := by
  refine ⟨rfl, hsign, fun _ => ?_⟩
  have hdigit : ∀ b, ds.head? = some b → isDigitByte b = true := fun b hb =>
    List.all_eq_true.mp hdigits.2 b (List.mem_of_head? hb)
  exact ⟨fun h => absurd (hdigit _ h) (by decide), fun h => absurd (hdigit _ h) (by decide)⟩

/-- The tokens that have a value are the `[+-]?[0-9]+` of R114, and the value is the signed decimal. -/
theorem tokenValue_eq_some_iff :
    tokenValue t = some v ↔
      ∃ sign m ds, SignFactor sign m ∧ IsDigits ds ∧ t = sign ++ ds ∧ m * decimalValue ds = v := by
  constructor
  · intro h
    obtain ⟨sign, ds, m, hsplit⟩ := exists_splitsSign t
    rw [tokenValue_of_splitsSign hsplit] at h
    obtain ⟨n, hn, rfl⟩ := Option.map_eq_some_iff.mp h
    obtain ⟨hdigits, rfl⟩ := unsignedValue_eq_some_iff.mp hn
    exact ⟨sign, m, ds, hsplit.factor, hdigits, hsplit.token_eq, rfl⟩
  · rintro ⟨sign, m, ds, hsign, hdigits, rfl, rfl⟩
    rw [tokenValue_of_splitsSign (splitsSign_signed hsign hdigits), unsignedValue_eq_some_iff.mpr ⟨hdigits, rfl⟩]
    rfl

/-- A signed decimal is its value where a cell can hold it. -/
theorem tokenOutcome_signed (hsign : SignFactor sign m) (hdigits : IsDigits ds) :
    tokenOutcome (sign ++ ds) =
      if -(2 ^ 31) ≤ m * decimalValue ds ∧ m * decimalValue ds ≤ 2 ^ 31 - 1
        then .value (wrap32 (m * decimalValue ds)) else .malformed := by
  rw [tokenOutcome, tokenValue_eq_some_iff.mpr ⟨sign, m, ds, hsign, hdigits, rfl, rfl⟩]

/-- Any other token is malformed. -/
theorem tokenOutcome_malformed (h : ∀ sign m ds, SignFactor sign m → IsDigits ds → t ≠ sign ++ ds) :
    tokenOutcome t = .malformed := by
  have hnone : tokenValue t = none := Option.eq_none_iff_forall_ne_some.mpr fun v hv => by
    obtain ⟨sign, m, ds, hsign, hdigits, ht, -⟩ := tokenValue_eq_some_iff.mp hv
    exact h sign m ds hsign hdigits ht
  rw [tokenOutcome, hnone]

/-- No byte of a signed decimal ends the token it stands in. -/
theorem not_space_of_signed (hsign : SignFactor sign m) (hdigits : IsDigits ds) :
    ∀ b ∈ sign ++ ds, isSpaceByte b = false := by
  have hds : ∀ b ∈ ds, isSpaceByte b = false := fun b hb =>
    isSpaceByte_of_digit (List.all_eq_true.mp hdigits.2 b hb)
  obtain ⟨rfl, -⟩ | ⟨rfl, -⟩ | ⟨rfl, -⟩ := hsign
  · exact hds
  · exact List.forall_mem_cons.mpr ⟨by decide, hds⟩
  · exact List.forall_mem_cons.mpr ⟨by decide, hds⟩

end Decimal

/-! ### How the input is cut (R114) -/

section Grammar

variable {ws tok rest : List Byte}

/-- Whitespace alone is end of input. -/
theorem inParseDefault_blank (hws : ws.all isSpaceByte = true) : inParseDefault ws = (.endOfInput, []) := by
  have hskip : ws.dropWhile isSpaceByte = [] := List.dropWhile_eq_nil_iff.mpr (List.all_eq_true.mp hws)
  rw [inParseDefault, hskip, if_pos rfl]

/-- The token is the run of other bytes after the leading whitespace, and what ends it is left. -/
theorem inParseDefault_token (hws : ws.all isSpaceByte = true) (hne : tok ≠ [])
    (htok : ∀ b ∈ tok, isSpaceByte b = false) (hrest : ∀ b bs, rest = b :: bs → isSpaceByte b = true) :
    inParseDefault (ws ++ tok ++ rest) = (tokenOutcome tok, rest) := by
  have hrun : ∀ b ∈ tok, (!isSpaceByte b) = true := fun b hb => by rw [htok b hb]; rfl
  have hskip : (ws ++ tok ++ rest).dropWhile isSpaceByte = tok ++ rest := by
    rw [List.append_assoc, List.dropWhile_append_of_pos (List.all_eq_true.mp hws)]
    cases tok with
    | nil => exact absurd rfl hne
    | cons b bs => exact List.dropWhile_cons_of_neg (by simp [htok b List.mem_cons_self])
  have htake : rest.takeWhile (fun b => !isSpaceByte b) = [] := by
    cases rest with
    | nil => rfl
    | cons b bs => exact List.takeWhile_cons_of_neg (by simp [hrest b bs rfl])
  have hdrop : rest.dropWhile (fun b => !isSpaceByte b) = rest := by
    cases rest with
    | nil => rfl
    | cons b bs => exact List.dropWhile_cons_of_neg (by simp [hrest b bs rfl])
  have hsome : ¬ tok ++ rest = [] := fun h => hne (List.append_eq_nil_iff.mp h).1
  simp only [inParseDefault, hskip, if_neg hsome, List.takeWhile_append_of_pos hrun, htake,
    List.dropWhile_append_of_pos hrun, hdrop, List.append_nil]

/-- What the default grammar leaves is the end of the input. -/
theorem inParseDefault_suffix (input : List Byte) : (inParseDefault input).2 <:+ input := by
  rw [inParseDefault]
  split
  · exact List.nil_suffix
  · exact (List.dropWhile_suffix _).trans (List.dropWhile_suffix _)

/-- The same for every grammar a machine can be created with. -/
theorem inParse_suffix (p : Parser) (input : List Byte) : (inParse p input).2 <:+ input := by
  cases p with
  | spec => exact inParseDefault_suffix input
  | other n => exact List.drop_suffix _ input

end Grammar

/-- Settles O33: how the input is cut, and what the token between the cuts stands for. -/
theorem defaultTokenGrammar : Obligations.DefaultTokenGrammar := by
  refine ⟨fun _ => inParseDefault_blank, fun ws ds rest sign m hws hsign hne hall hrest => ?_,
    fun ws tok rest hws hne htok hbad hrest => ?_, fun p input => ?_⟩
  · have hdigits : IsDigits ds := ⟨hne, hall⟩
    have htok : sign ++ ds ≠ [] := fun h => hne (List.append_eq_nil_iff.mp h).2
    rw [← tokenOutcome_signed hsign hdigits]
    exact inParseDefault_token hws htok (not_space_of_signed hsign hdigits) hrest
  · have hmalformed : tokenOutcome tok = .malformed := tokenOutcome_malformed fun sign m ds hsign hdigits =>
      hbad sign ds (hsign.imp And.left (.imp And.left And.left)) hdigits.1 hdigits.2
    rw [← hmalformed]
    exact inParseDefault_token hws hne htok hrest
  · obtain ⟨consumed, h⟩ := inParse_suffix p input
    exact ⟨consumed, h.symm⟩

/-! ### The decimal rendering (R116) -/

/-! The byte that renders one decimal place `k` is a digit, stands for `k`, and is the byte of 0 for no other place. -/

theorem isDigitByte_place : ∀ k < 10, isDigitByte (BitVec.ofNat 8 (0x30 + k)) = true := by decide

theorem value_place : ∀ k < 10, (BitVec.ofNat 8 (0x30 + k)).toNat - 0x30 = k := by decide

theorem place_eq_zero : ∀ k < 10, BitVec.ofNat 8 (0x30 + k) = 0x30 → k = 0 := by decide

theorem all_isDigitByte_decimalDigits (fuel n : Nat) : (decimalDigits fuel n).all isDigitByte = true := by
  induction fuel generalizing n with
  | zero => rfl
  | succ fuel ih =>
    rw [decimalDigits]
    split
    · next hn => rw [List.all_cons, isDigitByte_place n hn]; rfl
    · rw [List.all_append, ih, List.all_cons, isDigitByte_place _ (Nat.mod_lt n (by decide))]; rfl

/-- With fuel for all its places, a number is rendered as a decimal that writes it. -/
theorem decimalValue_decimalDigits {fuel n : Nat} (h : n < 10 ^ fuel) : decimalValue (decimalDigits fuel n) = n := by
  induction fuel generalizing n with
  | zero => rw [Nat.lt_one_iff.mp h]; rfl
  | succ fuel ih =>
    rw [decimalDigits]
    split
    · next hn => rw [decimalValue_singleton, value_place n hn]
    · rw [decimalValue_append_singleton, ih (by omega), value_place _ (Nat.mod_lt n (by decide)), Nat.div_add_mod]

/-- The first place of a positive number is not 0. -/
theorem head_decimalDigits {fuel n : Nat} (hpos : 0 < n) (h : n < 10 ^ fuel) :
    ∃ b, (decimalDigits fuel n).head? = some b ∧ b ≠ 0x30 := by
  induction fuel generalizing n with
  | zero => omega
  | succ fuel ih =>
    rw [decimalDigits]
    split
    · next hn => exact ⟨_, rfl, fun hb => Nat.ne_of_gt hpos (place_eq_zero n hn hb)⟩
    · obtain ⟨b, hhead, hb⟩ := ih (n := n / 10) (by omega) (by omega)
      exact ⟨b, by rw [List.head?_append, hhead]; rfl, hb⟩

/-- Ten places are enough for a word (R116). -/
theorem toNat_lt_ten_pow (w : Word) : w.toNat < 10 ^ 10 := by
  have := w.isLt
  omega

/-- A word has a first place, and only 0 has the place 0 there. -/
theorem dec_bytes_head (w : Word) : ∃ b, (OutItem.dec w).bytes.head? = some b ∧ (b = 0x30 → w = 0) := by
  by_cases hw : w = 0
  · subst hw
    exact ⟨0x30, rfl, fun _ => rfl⟩
  · have hpos : 0 < w.toNat := by bv_omega
    obtain ⟨b, hhead, hb⟩ := head_decimalDigits hpos (toNat_lt_ten_pow w)
    exact ⟨b, hhead, fun h => absurd h hb⟩

/-- A word read as unsigned is its signed value modulo 2^32. -/
theorem toNat_eq_toInt_emod (w : Word) : (w.toNat : Int) = w.toInt % 2 ^ 32 := by
  have := w.isLt
  rw [BitVec.toInt_eq_toNat_cond]
  omega

/-! ### The answers of a device (R113 to R116) -/

section Device

variable {d : Device}

theorem inToken_answered {o : TokenOutcome} {rest : List Byte} (h : d.inputAnswers = true)
    (hparse : inParse d.parser d.input = (o, rest)) : d.inToken = some (o, { d with input := rest }) := by
  simp [Device.inToken, h, hparse]

theorem inByte_byte {b : Byte} {rest : List Byte} (h : d.inputAnswers = true) (hinput : d.input = b :: rest) :
    d.inByte = some (.byte b, { d with input := rest }) := by
  simp [Device.inByte, h, hinput]

theorem inByte_end (h : d.inputAnswers = true) (hinput : d.input = []) : d.inByte = some (.endOfInput, d) := by
  simp [Device.inByte, h, hinput]

theorem accept_answered (item : OutItem) (h : d.outputAnswers = true) :
    d.accept item = some { d with output := d.output ++ [item] } := by
  simp [Device.accept, h]

theorem inToken_unanswered (h : d.inputAnswers = false) : d.inToken = none := by
  simp [Device.inToken, h]

theorem inByte_unanswered (h : d.inputAnswers = false) : d.inByte = none := by
  simp [Device.inByte, h]

theorem accept_unanswered (item : OutItem) (h : d.outputAnswers = false) : d.accept item = none := by
  simp [Device.accept, h]

/-- An accepted request appends its bytes to the output stream. -/
theorem outputBytes_append (d : Device) (item : OutItem) :
    { d with output := d.output ++ [item] }.outputBytes = d.outputBytes ++ item.bytes := by
  simp [Device.outputBytes]

end Device

/-! ### `out` and `put` never end with IO_ERROR (R116) -/

section OutputStatus

variable {s t : State} {cell : Word}

theorem execOut_status (h : execOut cell s = .next t) : t.status = s.status ∨ t.status = .illegalOperand := by
  obtain ⟨r, -, h⟩ | ⟨-, rfl⟩ := withReg_next h
  · obtain ⟨d, -, h⟩ := transact_next h
    obtain rfl := succeed_next h
    exact .inl rfl
  · exact .inr rfl

theorem execPut_status (h : execPut cell s = .next t) : t.status = s.status ∨ t.status = .illegalOperand := by
  obtain ⟨r, -, h⟩ | ⟨-, rfl⟩ := withReg_next h
  · split at h
    · obtain ⟨d, -, h⟩ := transact_next h
      obtain rfl := succeed_next h
      exact .inl rfl
    · obtain rfl := raise_next h
      exact .inr rfl
  · exact .inr rfl

end OutputStatus

/-- Settles O34: by the places of the rendering, and by the two statuses an output instruction can leave. -/
theorem outputRendering : Obligations.OutputRendering := by
  refine ⟨fun _ => rfl, fun w => ?_, fun d item h => ⟨_, accept_answered item h, outputBytes_append d item⟩,
    fun s t cell hs h hio => ?_⟩
  · obtain ⟨b, hhead, hzero⟩ := dec_bytes_head w
    refine ⟨fun hnil => by simp [hnil] at hhead, all_isDigitByte_decimalDigits 10 w.toNat, ?_, fun h0 => ?_⟩
    · rw [← toNat_eq_toInt_emod]
      exact congrArg _ (decimalValue_decimalDigits (toNat_lt_ten_pow w))
    · obtain rfl := hzero (Option.some.inj (hhead.symm.trans h0))
      rfl
  · have hstatus : t.status = .ok ∨ t.status = .illegalOperand := hs ▸ h.elim execOut_status execPut_status
    simp [hio] at hstatus

/-! ### The instructions where the device answers (R117 to R121) -/

section Answered

variable {s : State} {r : Reg}

theorem execIn_value {v : Word} {rest : List Byte} (hanswers : s.dev.inputAnswers = true)
    (hparse : inParse s.dev.parser s.dev.input = (.value v, rest)) :
    execIn r.index s = .next { s with
      regs := s.regs.set r v, ip := wrap32 (s.ip.toInt + 2), dev := { s.dev with input := rest } } := by
  rw [execIn, withReg_index, inToken_answered hanswers hparse]
  rfl

theorem execIn_endOfInput {rest : List Byte} (hanswers : s.dev.inputAnswers = true)
    (hparse : inParse s.dev.parser s.dev.input = (.endOfInput, rest)) :
    execIn r.index s = .next { s with
      regs := (s.regs.set .C 0).set r (-1), ip := wrap32 (s.ip.toInt + 2), dev := { s.dev with input := rest } } := by
  rw [execIn, withReg_index, inToken_answered hanswers hparse]
  rfl

theorem execGet_byte {b : Byte} {rest : List Byte} (hanswers : s.dev.inputAnswers = true)
    (hinput : s.dev.input = b :: rest) :
    execGet r.index s = .next { s with
      regs := s.regs.set r (zext32 b), ip := wrap32 (s.ip.toInt + 2), dev := { s.dev with input := rest } } := by
  rw [execGet, withReg_index, inByte_byte hanswers hinput]
  rfl

theorem execGet_endOfInput (hanswers : s.dev.inputAnswers = true) (hinput : s.dev.input = []) :
    execGet r.index s = .next { s with
      regs := (s.regs.set .C 0).set r (-1), ip := wrap32 (s.ip.toInt + 2) } := by
  rw [execGet, withReg_index, inByte_end hanswers hinput]
  rfl

theorem execOut_answered (hanswers : s.dev.outputAnswers = true) :
    execOut r.index s = .next { s with
      ip := wrap32 (s.ip.toInt + 2)
      dev := { s.dev with output := s.dev.output ++ [.dec (s.regs.get r)] } } := by
  rw [execOut, withReg_index, accept_answered _ hanswers]
  rfl

/-- A register that holds a byte's value is put as its low byte, if the device accepts it (R121). -/
theorem execPut_inRange (h : 0 ≤ (s.regs.get r).toInt ∧ (s.regs.get r).toInt ≤ 255) :
    execPut r.index s = transact (s.dev.accept (.byte (lowByte (s.regs.get r))))
      fun d => succeed 2 { device := some d } s := by
  have hbyte : (aluOps .add 0 (s.regs.get r) s.regs.c).byteOk = true := decide_eq_true h
  rw [execPut, withReg_index, if_pos hbyte]

theorem lowByte_eq_of_toInt {w : Word} {b : Byte} (h : w.toInt = b.toNat) : lowByte w = b := by
  apply BitVec.eq_of_toNat_eq
  have hw := toNat_eq_toInt_emod w
  have hb := b.isLt
  rw [lowByte_toNat]
  omega

theorem execPut_answered {b : Byte} (hanswers : s.dev.outputAnswers = true) (hb : (s.regs.get r).toInt = b.toNat) :
    execPut r.index s = .next { s with
      ip := wrap32 (s.ip.toInt + 2), dev := { s.dev with output := s.dev.output ++ [.byte b] } } := by
  have hlt := b.isLt
  rw [execPut_inRange (by omega), lowByte_eq_of_toInt hb, accept_answered _ hanswers]
  rfl

end Answered

/-- The zero extension of a byte is the word of its number (R119). -/
theorem zext32_eq_wrap32 (b : Byte) : zext32 b = wrap32 b.toNat := by
  rw [zext32, wrap32, BitVec.ofInt_natCast, BitVec.ofNat_toNat]

/-- The two writes of end of input, in their order: the second wins on C (R118). -/
theorem Regs.endOfInput_reads (x : Regs) (r : Reg) :
    (r = .C → ((x.set .C 0).set r (-1)).c.toInt = -1) ∧
      (r ≠ .C → ((x.set .C 0).set r (-1)).c = 0 ∧ (((x.set .C 0).set r (-1)).get r).toInt = -1) := by
  refine ⟨?_, fun hr => ⟨?_, ?_⟩⟩
  · rintro rfl
    rfl
  · exact (get_set_of_ne _ _ (Ne.symm hr)).trans (get_set_same x .C 0)
  · rw [get_set_same]
    rfl

/-- Settles O27: a value and the end of input are successes, and a malformed token raises. -/
theorem inReadsAToken : Obligations.InReadsAToken :=
  ⟨fun _ _ _ _ hanswers hparse => exists_next_of_status_eq (execIn_value hanswers hparse) rfl,
    fun _ _ _ hanswers hparse => exists_next_of_status_eq (execIn_endOfInput hanswers hparse) rfl,
    fun _ _ _ => execIn_malformed, fun _ _ => exec_invalid_operand (List.mem_singleton_self _), fun _ => rfl⟩

/-- Settles O28: a byte is below 2^31, so its zero extension keeps its number. -/
theorem getReadsOneByte : Obligations.GetReadsOneByte := by
  refine ⟨fun s r b rest hanswers hinput => ?_,
    fun _ _ hanswers hinput => exists_next_of_status_eq (execGet_endOfInput hanswers hinput) rfl,
    fun _ _ => exec_invalid_operand (List.mem_singleton_self _), fun _ => rfl⟩
  have hb := b.isLt
  have hget := execGet_byte (r := r) hanswers hinput
  rw [zext32_eq_wrap32] at hget
  obtain ⟨t, hnext, rfl, hreturns⟩ := exists_next_of_status_eq hget rfl
  refine ⟨_, hnext, rfl, ?_, hreturns⟩
  rw [Regs.get_set_same]
  exact toInt_wrap32_of_bounds (by omega) (by omega)

/-- Settles O29: `in` and `get` make the same two writes at end of input. -/
theorem endOfInputWritesCThenTheOperand : Obligations.EndOfInputWritesCThenTheOperand := fun s r _ hanswers =>
  ⟨fun hparse => ⟨_, execIn_endOfInput hanswers hparse, Regs.endOfInput_reads s.regs r⟩,
    fun hinput => ⟨_, execGet_endOfInput hanswers hinput, Regs.endOfInput_reads s.regs r⟩⟩

/-- Settles O30: the request carries the register's own word, and the stream gains that request's bytes. -/
theorem outPassesItsRegister : Obligations.OutPassesItsRegister :=
  ⟨fun s _ hanswers => ⟨_, execOut_answered hanswers, rfl, outputBytes_append s.dev _, fun hs => decide_eq_true hs⟩,
    fun _ _ => exec_invalid_operand (List.mem_singleton_self _), fun _ => rfl⟩

/-- Settles O31: the low byte of a value in range is the byte it is, and any other value is `put`'s own error. -/
theorem putWritesOneByteInRange : Obligations.PutWritesOneByteInRange :=
  ⟨fun s _ _ hanswers hb =>
      ⟨_, execPut_answered hanswers hb, rfl, outputBytes_append s.dev _, fun hs => decide_eq_true hs⟩,
    fun _ r h => exec_ownError (.put r h),
    fun _ _ => exec_invalid_operand (List.mem_singleton_self _), fun _ => rfl⟩

/-! ### The instructions where the device does not answer (R113) -/

section Unanswered

variable {s : State} {r : Reg}

theorem execIn_unanswered (h : s.dev.inputAnswers = false) : execIn r.index s = .fault .ioBlocked := by
  rw [execIn, withReg_index, inToken_unanswered h]
  rfl

theorem execGet_unanswered (h : s.dev.inputAnswers = false) : execGet r.index s = .fault .ioBlocked := by
  rw [execGet, withReg_index, inByte_unanswered h]
  rfl

theorem execOut_unanswered (h : s.dev.outputAnswers = false) : execOut r.index s = .fault .ioBlocked := by
  rw [execOut, withReg_index, accept_unanswered _ h]
  rfl

theorem execPut_unanswered (h : s.dev.outputAnswers = false)
    (hrange : 0 ≤ (s.regs.get r).toInt ∧ (s.regs.get r).toInt ≤ 255) : execPut r.index s = .fault .ioBlocked := by
  rw [execPut_inRange hrange, accept_unanswered _ h]
  rfl

end Unanswered

/-- Settles O32: the request comes after every check, so only an instruction whose checks pass waits. -/
theorem unansweredRequestsAreStuck : Obligations.UnansweredRequestsAreStuck := by
  refine ⟨fun _ _ h => ⟨execIn_unanswered h, execGet_unanswered h⟩,
    fun _ _ h => ⟨execOut_unanswered h, fun hlo hhi => execPut_unanswered h ⟨hlo, hhi⟩⟩, fun _ _ _ hbad => ?_⟩
  obtain ⟨cell, hmem, hcell⟩ := exists_invalid_operand hbad
  exact exec_invalid_operand hmem hcell

end Sys2Proof.Machine


/-! The statements about exceptions (60_exceptions.md): which instructions reach the device (R131), and the causes of every status
a step sets (R122). -/

namespace Sys2Proof.Machine

/-! ### Instructions that do not reach the device (R131) -/

/-- An outcome with another device in its next state, if it has one. -/
def onDevice (d : Device) : StepOutcome → StepOutcome
  | .next t => .next { t with dev := d }
  | .fault f => .fault f
  | .refused f => .refused f

section OnDevice

variable {s : State} {d : Device}

theorem raise_onDevice (e : Status) : raise e { s with dev := d } = onDevice d (raise e s) := rfl

/-- A handler that succeeds and whose commit holds no device. -/
theorem succeed_onDevice {w : Nat} {c : Commit} (hc : c.device = none) :
    succeed w c { s with dev := d } = onDevice d (succeed w c s) := by
  simp [succeed, commit, nextIp, onDevice, hc]

theorem withReg_onDevice {cell : Word} {k k' : Reg → StepOutcome} (hk : ∀ r, k' r = onDevice d (k r)) :
    withReg cell { s with dev := d } k' = onDevice d (withReg cell s k) := by
  cases hr : regOperand cell with
  | some r => rw [withReg_some hr, withReg_some hr, hk]
  | none => rw [withReg_none hr, withReg_none hr, raise_onDevice]

/-- A handler whose register operand is its only check. -/
theorem checkedReg_onDevice {cell : Word} {w : Nat} {c : Reg → Commit} (hc : ∀ r, (c r).device = none) :
    withReg cell { s with dev := d } (fun r => succeed w (c r) { s with dev := d }) =
      onDevice d (withReg cell s fun r => succeed w (c r) s) :=
  withReg_onDevice fun r => succeed_onDevice (hc r)

/-- The stack boundary checker has no port to the device (R35). -/
theorem stackCheck_onDevice (req : StackReq) (p a : Int) :
    stackCheck req p a { s with dev := d } = stackCheck req p a s := by
  cases req <;> rfl

theorem withStack_onDevice {req : StackReq} {num : Word} {k k' : StackOut → StepOutcome}
    (hk : ∀ out, k' out = onDevice d (k out)) :
    withStack req num { s with dev := d } k' = onDevice d (withStack req num s k) := by
  have htranslator : translator { s with dev := d } num = translator s num := rfl
  simp only [withStack, stackCheck_onDevice, htranslator]
  split
  · exact hk _
  · rfl

theorem withCell_onDevice {addr : Int} {k k' : Nat → Word → StepOutcome} (hk : ∀ a v, k' a v = onDevice d (k a v)) :
    withCell { s with dev := d } addr k' = onDevice d (withCell s addr k) := by
  have hcell : State.hasCell { s with dev := d } addr = s.hasCell addr := rfl
  simp only [withCell, hcell]
  split
  · exact hk _ _
  · rfl

/-- The shape `load`, `store`, `push` and `pop` share. -/
theorem stackAccess_onDevice {cell num : Word} {req : StackReq} {addr : Int} {w : Nat}
    {c : Reg → StackOut → Nat → Word → Commit} (hc : ∀ r out a v, (c r out a v).device = none) :
    (withReg cell { s with dev := d } fun r => withStack req num { s with dev := d } fun out =>
      withCell { s with dev := d } addr fun a v => succeed w (c r out a v) { s with dev := d }) =
    onDevice d (withReg cell s fun r => withStack req num s fun out =>
      withCell s addr fun a v => succeed w (c r out a v) s) :=
  withReg_onDevice fun _ => withStack_onDevice fun _ => withCell_onDevice fun _ _ => succeed_onDevice (hc _ _ _ _)

theorem execDiv_onDevice (reg : Word) : execDiv reg { s with dev := d } = onDevice d (execDiv reg s) :=
  withReg_onDevice fun r => by
    have htest : aluAt .div s.regs.a (s.regs.get r) { s with dev := d } = aluAt .div s.regs.a (s.regs.get r) s := rfl
    simp only [htest]
    split
    · rfl
    · exact succeed_onDevice rfl

theorem execLoop_onDevice (index : Word) : execLoop index { s with dev := d } = onDevice d (execLoop index s) := by
  unfold execLoop
  dsimp only
  split
  · exact succeed_onDevice rfl
  · rfl

/-- With another device an instruction that is not one of the four does the same, but for that device. -/
theorem exec_onDevice {i : Instr} (hio : i.isIo = false) : exec i { s with dev := d } = onDevice d (exec i s) := by
  cases i with
  | inp | get | out | put => cases hio
  | nop => exact succeed_onDevice rfl
  | halt => exact succeed_onDevice rfl
  | add => exact checkedReg_onDevice fun _ => rfl
  | sub => exact checkedReg_onDevice fun _ => rfl
  | mul => exact checkedReg_onDevice fun _ => rfl
  | div => exact execDiv_onDevice _
  | inc => exact checkedReg_onDevice fun _ => rfl
  | dec => exact checkedReg_onDevice fun _ => rfl
  | loop => exact execLoop_onDevice _
  | movr => exact checkedReg_onDevice fun _ => rfl
  | load => exact stackAccess_onDevice fun _ _ _ _ => rfl
  | store => exact stackAccess_onDevice fun _ _ _ _ => rfl
  | swap => exact withReg_onDevice fun _ => checkedReg_onDevice fun _ => rfl
  | push => exact stackAccess_onDevice fun _ _ _ _ => rfl
  | pop => exact stackAccess_onDevice fun _ _ _ _ => rfl

/-- Such an instruction leaves its device: with the device it already has, it does what it does. -/
theorem exec_keeps_device {i : Instr} {t : State} (hio : i.isIo = false) (h : exec i s = .next t) : t.dev = s.dev := by
  have hown : exec i s = onDevice s.dev (exec i s) := exec_onDevice hio
  rw [h] at hown
  have hsame : t = { t with dev := s.dev } := Host.Outcome.next.inj hown
  rw [hsame]

end OnDevice

/-- Settles O35: by what another device does to each outcome. -/
theorem otherInstructionsIgnoreTheDevice : Obligations.OtherInstructionsIgnoreTheDevice := by
  intro i s d hio
  refine ⟨fun t h => ⟨exec_keeps_device hio h, ?_⟩, fun f h => ?_⟩
  · rw [exec_onDevice hio, h, onDevice]
  · rw [exec_onDevice hio, h, onDevice]

/-! ### The causes of a status (R122) -/

/-- The status a step from status OK leaves, and what in the state before it is the cause. -/
inductive State.Cause (s : State) : Status → Prop where
  | completed : s.Cause .ok
  | halted (holds : s.Holds .halt) : s.Cause .halted
  | outside (not_inRegion : ¬ s.InRegion) : s.Cause .invalidAddress
  | illegalOpcode (inRegion : s.InRegion) (opcode : ¬ (0 ≤ (s.cellAt 0).toInt ∧ (s.cellAt 0).toInt ≤ 18)) :
      s.Cause .illegalInstruction
  | operandOutside (i : Instr) (opcode : (encode i).head? = some (s.cellAt 0))
      (cell : (s.memCells : Int) ≤ s.ip.toInt + i.width - 1) : s.Cause .invalidAddress
  | illFormed (i : Instr) (holds : s.Holds i) (operand : i.wellFormed = false) : s.Cause .illegalOperand
  | ownError (i : Instr) (e : Status) (holds : s.Holds i) (own : s.OwnError i e) : s.Cause e
  | malformedToken (r : Reg) (holds : s.Holds (.inp r.index))
      (token : (inParse s.dev.parser s.dev.input).1 = .malformed) : s.Cause .ioError

/-! #### The fetch (R80 to R82) -/

section FetchCause

variable {s : State}

/-- An operand cell that the fetch misses is a missing operand cell of some instruction with that opcode (R82). -/
theorem cause_of_operandsOk_eq_false {f : Format} (hf : formatOf (s.cellAt 0) = some f) (hc : s.ip.toInt < s.memCells)
    (hbad : operandsOk s f.width = false) : s.Cause .invalidAddress := by
  obtain ⟨hpos, hle⟩ := formatOf_width_pos hf
  have hencode : encode (f.build 0 0) = s.cellAt 0 :: [0, 0].take (f.width - 1) := encode_build_eq_cons hf 0 0
  have hwidth : (f.build 0 0).width = f.width := by
    rw [Instr.width, hencode, List.length_cons, List.length_take, List.length_cons, List.length_singleton]
    omega
  rw [← Bool.not_eq_true, operandsOk_iff hpos hle hc, not_lt, ← hwidth] at hbad
  exact .operandOutside _ (by rw [hencode, List.head?_cons]) hbad

/-- A fetch raises for a pointer outside its region, for a cell that is no opcode, and for a missing operand cell. -/
theorem fetchDecode_raised_cause {e : Status} (h : fetchDecode s = .raised e) : s.Cause e := by
  unfold fetchDecode at h
  split at h
  · cases h
  split at h
  · next hfetch =>
    cases h
    have hbad : (translator s 0).fetchOk = false := by simpa using hfetch
    exact .outside (of_decide_eq_false hbad)
  next hfetch =>
  split at h
  · cases h
  next hcell =>
  have hregion : s.InRegion := by simpa [translator] using hfetch
  split at h
  · next hf =>
    cases h
    exact .illegalOpcode hregion (formatOf_eq_none_iff.mp hf)
  next f hf =>
  split at h
  · next hbad =>
    cases h
    have hin : s.hasCell s.ip.toInt = true := by simpa using hcell
    exact cause_of_operandsOk_eq_false hf (hasCell_iff.mp hin).2 (by simpa using hbad)
  · cases h

end FetchCause

/-! #### The handlers (R85, and the instructions' own checks) -/

section HandlerCause

variable {i : Instr} {s t : State}

/-- A handler that succeeds and commits no status leaves OK. -/
theorem succeed_cause (hs : s.status = .ok) {w : Nat} {c : Commit} (h : succeed w c s = .next t)
    (hc : c.status = none) : s.Cause t.status := by
  obtain rfl := succeed_next h
  have hok : (commit { c with pcNext := some (nextIp s w) } s).status = .ok := by simp [hc, hs]
  exact hok ▸ .completed

section Held

variable (hi : s.Holds i)
include hi

/-- The error of a check of the handler's own. -/
theorem raise_cause {e : Status} (h : raise e s = .next t) (hown : s.OwnError i e) : s.Cause t.status := by
  obtain rfl := raise_next h
  exact .ownError i e hi hown

/-- A register operand names a register, or the instruction is ill formed (R85). -/
theorem withReg_cause {cell : Word} {k : Reg → StepOutcome} (hmem : cell ∈ i.regOperands)
    (h : withReg cell s k = .next t) (hk : ∀ r, cell = r.index → k r = .next t → s.Cause t.status) :
    s.Cause t.status := by
  obtain ⟨r, hr, h⟩ | ⟨hr, rfl⟩ := withReg_next h
  · exact hk r (regOperand_eq_some_iff_index.mp hr) h
  · refine .illFormed i hi (List.all_eq_false.mpr ⟨cell, hmem, ?_⟩)
    simp [validRegCell_eq, hr]

/-- A handler whose register operand is its only check. -/
theorem checkedReg_cause (hs : s.status = .ok) {cell : Word} {w : Nat} {c : Reg → Commit}
    (hmem : cell ∈ i.regOperands) (h : withReg cell s (fun r => succeed w (c r) s) = .next t)
    (hc : ∀ r, (c r).status = none) : s.Cause t.status :=
  withReg_cause hi hmem h fun r _ h => succeed_cause hs h (hc r)

/-- The shape `load`, `store`, `push` and `pop` share: a rejected stack request is the instruction's own error. -/
theorem stackAccess_cause (hs : s.status = .ok) {cell num : Word} {req : StackReq} {addr : Int} {w : Nat}
    {c : Reg → StackOut → Nat → Word → Commit} (hmem : cell ∈ i.regOperands)
    (h : withReg cell s (fun r => withStack req num s fun out =>
      withCell s addr fun a v => succeed w (c r out a v) s) = .next t)
    (hc : ∀ r out a v, (c r out a v).status = none)
    (hown : ∀ r : Reg, cell = r.index →
      (stackCheck req (translator s num).dPlusNum (translator s num).frameAddr s).stackOk = false →
      s.OwnError i .invalidStackOperation) : s.Cause t.status :=
  withReg_cause hi hmem h fun r hr h => by
    obtain ⟨-, h⟩ | ⟨hbad, rfl⟩ := withStack_next h
    · exact succeed_cause hs (withCell_next h).2 (hc r _ _ _)
    · exact .ownError i _ hi (hown r hr hbad)

end Held

section Instructions

variable (hs : s.status = .ok) {reg num : Word}
include hs

theorem execLoop_cause {index : Word} (h : execLoop index s = .next t) : s.Cause t.status := by
  unfold execLoop at h
  split at h
  · exact succeed_cause hs h rfl
  · cases h
    exact hs ▸ .completed

/-- `div` raises for a divisor of 0 (R97). -/
theorem execDiv_cause (hi : s.Holds (.div reg)) (h : execDiv reg s = .next t) : s.Cause t.status :=
  withReg_cause hi (List.mem_singleton_self _) h fun r hr hdiv => by
    subst hr
    split at hdiv
    · next hzero => exact raise_cause hi hdiv (.div r (zeroTest_eq_true_iff.mp hzero))
    · exact succeed_cause hs hdiv rfl

/-- A frame access the checker rejects is not valid (R106). -/
theorem execLoad_cause (hi : s.Holds (.load reg num)) (h : execLoad reg num s = .next t) : s.Cause t.status :=
  stackAccess_cause hi hs (List.mem_singleton_self _) h (fun _ _ _ _ => rfl) fun r hr hbad =>
    hr ▸ .load r num fun hvalid => Bool.eq_false_iff.mp hbad (frameOk_of_frameValid hvalid)

theorem execStore_cause (hi : s.Holds (.store reg num)) (h : execStore reg num s = .next t) : s.Cause t.status :=
  stackAccess_cause hi hs (List.mem_singleton_self _) h (fun _ _ _ _ => rfl) fun r hr hbad =>
    hr ▸ .store r num fun hvalid => Bool.eq_false_iff.mp hbad (frameOk_of_frameValid hvalid)

/-- A push the checker rejects has no room (R110). -/
theorem execPush_cause (hi : s.Holds (.push reg)) (h : execPush reg s = .next t) : s.Cause t.status :=
  stackAccess_cause hi hs (List.mem_singleton_self _) h (fun _ _ _ _ => rfl) fun r hr hbad =>
    hr ▸ .push r (not_not.mp (of_decide_eq_false hbad))

/-- A pop the checker rejects meets an empty stack (R111). -/
theorem execPop_cause (hi : s.Holds (.pop reg)) (h : execPop reg s = .next t) : s.Cause t.status :=
  stackAccess_cause hi hs (List.mem_singleton_self _) h (fun _ _ _ _ => rfl) fun r hr hbad =>
    hr ▸ .pop r (not_not.mp (of_decide_eq_false hbad))

/-- `in` raises IO_ERROR for a malformed token (R117). -/
theorem execIn_cause (hi : s.Holds (.inp reg)) (h : execIn reg s = .next t) : s.Cause t.status :=
  withReg_cause hi (List.mem_singleton_self _) h fun r hr hrequest => by
    subst hr
    obtain ⟨⟨o, d⟩, ha, hanswer⟩ := transact_next hrequest
    obtain ⟨-, ho, -⟩ := inToken_some ha
    cases o with
    | value v => exact succeed_cause hs hanswer rfl
    | endOfInput => exact succeed_cause hs hanswer rfl
    | malformed =>
      obtain rfl := raise_next hanswer
      exact .malformedToken r hi ho.symm

theorem execGet_cause (hi : s.Holds (.get reg)) (h : execGet reg s = .next t) : s.Cause t.status :=
  withReg_cause hi (List.mem_singleton_self _) h fun r _ h => by
    obtain ⟨⟨o, d⟩, -, h⟩ := transact_next h
    cases o with
    | byte b => exact succeed_cause hs h rfl
    | endOfInput => exact succeed_cause hs h rfl

theorem execOut_cause (hi : s.Holds (.out reg)) (h : execOut reg s = .next t) : s.Cause t.status :=
  withReg_cause hi (List.mem_singleton_self _) h fun r _ h => by
    obtain ⟨d, -, h⟩ := transact_next h
    exact succeed_cause hs h rfl

/-- `put` raises for a value that is no byte (R121). -/
theorem execPut_cause (hi : s.Holds (.put reg)) (h : execPut reg s = .next t) : s.Cause t.status :=
  withReg_cause hi (List.mem_singleton_self _) h fun r hr hput => by
    subst hr
    split at hput
    · obtain ⟨d, -, hanswer⟩ := transact_next hput
      exact succeed_cause hs hanswer rfl
    · next hbyte => exact raise_cause hi hput (.put r fun hrange => hbyte (decide_eq_true hrange))

/-- `swap` checks both its operands (R105). -/
theorem execSwap_cause {reg1 reg2 : Word} (hi : s.Holds (.swap reg1 reg2)) (h : execSwap reg1 reg2 s = .next t) :
    s.Cause t.status :=
  withReg_cause hi List.mem_cons_self h fun _ _ h =>
    checkedReg_cause hi hs (List.mem_cons_of_mem _ (List.mem_singleton_self _)) h fun _ => rfl

/-- Whatever status the handler of the instruction at `ip` leaves has its cause. -/
theorem exec_cause (hi : s.Holds i) (h : exec i s = .next t) : s.Cause t.status := by
  cases i with
  | nop => exact succeed_cause hs h rfl
  | halt =>
    obtain rfl := succeed_next h
    exact .halted hi
  | add => exact checkedReg_cause hi hs (List.mem_singleton_self _) h fun _ => rfl
  | sub => exact checkedReg_cause hi hs (List.mem_singleton_self _) h fun _ => rfl
  | mul => exact checkedReg_cause hi hs (List.mem_singleton_self _) h fun _ => rfl
  | div => exact execDiv_cause hs hi h
  | inc => exact checkedReg_cause hi hs (List.mem_singleton_self _) h fun _ => rfl
  | dec => exact checkedReg_cause hi hs (List.mem_singleton_self _) h fun _ => rfl
  | loop => exact execLoop_cause hs h
  | movr => exact checkedReg_cause hi hs (List.mem_singleton_self _) h fun _ => rfl
  | load => exact execLoad_cause hs hi h
  | store => exact execStore_cause hs hi h
  | inp => exact execIn_cause hs hi h
  | get => exact execGet_cause hs hi h
  | out => exact execOut_cause hs hi h
  | put => exact execPut_cause hs hi h
  | swap => exact execSwap_cause hs hi h
  | push => exact execPush_cause hs hi h
  | pop => exact execPop_cause hs hi h

/-- Whatever status a step from OK leaves has its cause, in the fetch or in the handler. -/
theorem step_cause (h : step s = .next t) : s.Cause t.status := by
  obtain ⟨-, rfl⟩ | ⟨e, hf, rfl⟩ | ⟨i, hf, h⟩ := step_next h
  · exact hs ▸ .completed
  · exact fetchDecode_raised_cause hf
  · obtain ⟨-, -, -, hi⟩ := fetchDecode_execute hf
    exact exec_cause hs hi h

end Instructions

end HandlerCause

/-- Settles O39: each status has the causes that can leave it, and no others. -/
theorem everyErrorHasItsCause : Obligations.EveryErrorHasItsCause := by
  intro s t hs h
  have hcause : ∀ {e}, t.status = e → s.Cause e := fun he => he ▸ step_cause hs h
  refine ⟨fun he => ?_, fun he => ?_, fun he => ?_, fun he => ?_, fun he => ?_, fun he => ?_, fun he => ?_⟩
  · cases hcause he with
    | illegalOpcode inRegion opcode => exact ⟨inRegion, opcode⟩
    | ownError i e holds own => cases own
  · cases hcause he with
    | illFormed i holds operand => exact ⟨i, holds, .inl operand⟩
    | ownError i e holds own => exact ⟨i, holds, .inr own⟩
  · cases hcause he with
    | outside not_inRegion => exact .inl not_inRegion
    | operandOutside i opcode cell => exact .inr ⟨i, opcode, cell⟩
    | ownError i e holds own => cases own
  · cases hcause he with
    | ownError i e holds own => exact ⟨i, holds, own⟩
  · cases hcause he with
    | ownError i e holds own =>
      cases own with
      | div r zero => exact ⟨r, holds, zero⟩
  · cases hcause he with
    | malformedToken r holds token => exact ⟨r, holds, token⟩
    | ownError i e holds own => cases own
  · cases hcause he with
    | halted holds => exact holds
    | ownError i e holds own => cases own

end Sys2Proof.Machine


/-! The statements about loading and creation (70_reset_and_hazards.md R136 to R140), the host's reset (R141, R142) and the calls
that observe or end a machine (R143). -/

namespace Sys2Proof

/-- A byte string is no list of cells exactly where it is not made of whole cells. -/
theorem cellsOfBytes_eq_none_iff {bytes : List Byte} : cellsOfBytes bytes = none ↔ bytes.length % 4 ≠ 0 := by
  refine ⟨fun hnone hwhole => ?_, fun hpartial => ?_⟩
  · obtain ⟨cells, hcells⟩ := exists_cellsOfBytes hwhole
    cases hnone.symm.trans hcells
  · by_contra hsome
    obtain ⟨cells, hcells⟩ := Option.ne_none_iff_exists'.mp hsome
    have hlength := length_of_cellsOfBytes hcells
    omega

end Sys2Proof

namespace Sys2Proof.Machine

/-! ### Loading (R136, R137, R140) -/

section Loading

variable {hasMemory : Bool} {bytes : List Byte} {cap : Int} {memCells : Nat} {img : Image}

theorem createMemory_of_partial (h : cellsOfBytes bytes = none) :
    createMemory hasMemory bytes cap memCells = .refused .loadError := by
  simp [createMemory, h]

/-- What `create_memory` can answer: the load error, one of the two other refusals, or the image of the cells. -/
inductive LoadAnswer (hasMemory : Bool) (bytes : List Byte) (cap : Int) (memCells : Nat) :
    Host.Outcome Image Fault Refusal → Prop
  | partialCell (bytes_none : cellsOfBytes bytes = none) :
      LoadAnswer hasMemory bytes cap memCells (.refused .loadError)
  | inadmissible {cells : List Word} (bytes_some : cellsOfBytes bytes = some cells)
      (not_sizes : ¬ (0 ≤ cap ∧ Config.validMemCells memCells cells.length cap.toNat)) :
      LoadAnswer hasMemory bytes cap memCells (.refused .inadmissibleImage)
  | noMemory {cells : List Word} (bytes_some : cellsOfBytes bytes = some cells)
      (sizes : 0 ≤ cap ∧ Config.validMemCells memCells cells.length cap.toNat) (memory : ¬ hasMemory = true) :
      LoadAnswer hasMemory bytes cap memCells (.refused .allocationFailed)
  | image {cells : List Word} (bytes_some : cellsOfBytes bytes = some cells)
      (sizes : 0 ≤ cap ∧ Config.validMemCells memCells cells.length cap.toNat) (memory : hasMemory = true) :
      LoadAnswer hasMemory bytes cap memCells
        (.next { cells := Memory.ofCells 0 cells, memCells := memCells, stackCap := cap.toNat })

theorem createMemory_answer (hasMemory : Bool) (bytes : List Byte) (cap : Int) (memCells : Nat) :
    LoadAnswer hasMemory bytes cap memCells (createMemory hasMemory bytes cap memCells) := by
  unfold createMemory
  split
  · next hcells => exact .partialCell hcells
  · next hcells =>
    split
    · next hsizes => exact .inadmissible hcells hsizes
    · next hsizes =>
      split
      · next hmemory => exact .image hcells (not_not.mp hsizes) hmemory
      · next hmemory => exact .noMemory hcells (not_not.mp hsizes) hmemory

/-- The load error is the answer to a partial cell, and to nothing else (R137). -/
theorem createMemory_loadError_iff :
    createMemory hasMemory bytes cap memCells = .refused .loadError ↔ cellsOfBytes bytes = none := by
  refine ⟨fun h => ?_, createMemory_of_partial⟩
  have hanswer := h ▸ createMemory_answer hasMemory bytes cap memCells
  cases hanswer with
  | partialCell bytes_none => exact bytes_none

/-- What every image has that `create_memory` answers (R6, R136): an admitted size, and a program that ends below the stack
region, in canonical form. -/
structure Image.Admitted (img : Image) : Prop where
  nonempty : 0 < img.memCells
  blocks : img.memCells % Config.blockCells = 0
  bound : img.memCells ≤ Config.maxMemCells
  stackCap_le : img.stackCap ≤ img.memCells
  canonical : img.cells.wf
  below_stack : ∀ e ∈ img.cells, e.1 < img.memCells - img.stackCap

theorem createMemory_admitted (h : createMemory hasMemory bytes cap memCells = .next img) :
    img.Admitted ∧ cap = img.stackCap := by
  have hanswer := h ▸ createMemory_answer hasMemory bytes cap memCells
  cases hanswer with
  | image bytes_some sizes memory =>
    obtain ⟨hcap, hpos, hblocks, hfits, hmax⟩ := sizes
    refine ⟨⟨hpos, hblocks, hmax, (Nat.le_add_left ..).trans hfits, Memory.wf_ofCells _ 0, fun e he => ?_⟩,
      (Int.toNat_of_nonneg hcap).symm⟩
    have hprogram := (Memory.mem_ofCells he).2
    simp only
    omega

end Loading

/-! ### Creation (R138 to R140) -/

section Creation

variable {img : Image} {bottom cap : Int} {dev : Device}

theorem create_mismatch {hasMemory : Bool} (h : ¬ (bottom = img.bottom ∧ cap = img.stackCap)) :
    create hasMemory img bottom cap dev = .refused .createMismatch := if_pos h

/-- With the image's own bottom and capacity, it is the host's memory that decides (R139, R140). -/
theorem create_own (hasMemory : Bool) (img : Image) (dev : Device) :
    create hasMemory img img.bottom img.stackCap dev =
      if hasMemory then .next (State.created img dev) else .refused .allocationFailed :=
  if_neg (not_not.mpr ⟨rfl, rfl⟩)

/-- Settles O50: the bytes alone decide the load error, and `create` compares its arguments before it allocates. -/
theorem loadAndCreationRefusals : Obligations.LoadAndCreationRefusals := by
  refine ⟨fun _ _ _ _ => createMemory_loadError_iff.trans cellsOfBytes_eq_none_iff,
    fun hasMemory img bottom cap dev => ⟨create_mismatch, ?_⟩⟩
  rintro rfl rfl
  exact create_own false img dev

section Admitted

variable (himg : img.Admitted)
include himg

theorem Image.Admitted.memCells_created (dev : Device) : (State.created img dev).memCells = img.memCells :=
  Nat.sub_add_cancel himg.nonempty

theorem Image.Admitted.stackCap_created (dev : Device) : (State.created img dev).stackCap = img.stackCap := by
  have hcells := himg.memCells_created dev
  have hle := himg.stackCap_le
  simp only [State.memCells, State.stackCap, State.created] at hcells ⊢
  omega

/-- The cells of a created machine's stack region are not in its program (R136). -/
theorem Image.Admitted.created_below_roof (dev : Device) :
    ∀ e ∈ (State.created img dev).mem, e.1 < (State.created img dev).roof := himg.below_stack

/-- A created machine has an empty stack above a program that leaves the stack region zero (R138). -/
theorem Image.Admitted.created_inv (dev : Device) : (State.created img dev).Inv where
  sizes := {
    blocks := himg.memCells_created dev ▸ himg.blocks
    bound := himg.memCells_created dev ▸ himg.bound
    roof_le := himg.memCells_created dev ▸ Nat.sub_le ..
    hasStack_iff := by rw [himg.stackCap_created dev]; exact decide_eq_true_iff }
  stack := ⟨Nat.zero_le _, rfl⟩
  image := {
    canonical := himg.canonical
    inside := fun e he => himg.memCells_created dev ▸ (himg.below_stack e he).trans_le (Nat.sub_le ..)
    vacant_zero := fun a ha => Memory.read_eq_zero fun e he =>
      ((himg.created_below_roof dev e he).trans_le ha.1).ne }

end Admitted

/-- Settles O52: a created machine is `State.created` of its image. -/
theorem createdMachinesSatisfyTheInvariant : Obligations.CreatedMachinesSatisfyTheInvariant := by
  intro bytes cap memCells img dev h
  obtain ⟨himg, rfl⟩ := createMemory_admitted h
  have hbottom : ((State.created img dev).bottom : Int) = img.bottom := Int.natCast_pred_of_pos himg.nonempty
  have hroof : ((State.created img dev).roof : Int) = img.bottom - img.stackCap + 1 := by
    have hsub : ((State.created img dev).roof : Int) = img.memCells - img.stackCap := Int.ofNat_sub himg.stackCap_le
    rw [hsub, Image.bottom]
    omega
  exact ⟨State.created img dev, create_own true img dev, himg.created_inv dev, rfl, rfl, rfl, hbottom, hbottom, hroof, rfl,
    by simp [State.created], rfl, rfl⟩

end Creation

/-- Settles O45: the default size is admitted for an empty program, and the fields of the reset state are those of its image. -/
theorem resetStateIsACreatedMachine : Obligations.ResetStateIsACreatedMachine := by
  have himg := createMemory_next (bytes := []) (cap := 0) (memCells := Config.defaultMemCells 0 0) rfl le_rfl (by decide)
  exact ⟨(createMemory_admitted himg).1.created_inv Device.reset, _, himg, create_own true _ Device.reset⟩

/-! ### The host's reset (R141, R142) -/

/-- Settles O54: the stack region of the image is a range that reset zeroes. -/
theorem hostResetOperation : Obligations.HostResetOperation := fun _ =>
  ⟨rfl, fun _ hroof hbottom => Memory.read_zeroRange_inside _ ⟨hroof, hbottom⟩,
    fun _ houtside => Memory.read_zeroRange_outside _ houtside⟩

/-- What reset leaves of a machine's image: the instruction region, and nothing else. -/
theorem State.Inv.read_hostReset {s : State} (hs : s.Inv) (a : Nat) :
    s.hostReset.mem.read a = if a < s.roof then s.mem.read a else 0 := by
  split
  · exact Memory.read_zeroRange_outside _ (by omega)
  · by_cases hbottom : a ≤ s.bottom
    · exact Memory.read_zeroRange_inside _ (by omega)
    · refine Memory.read_eq_zero fun e he => ?_
      have hinside : e.1 < s.bottom + 1 := hs.hostReset.image.inside e he
      omega

/-- Reset forgets how a machine came to its state: of two states of one machine it makes the same, the host's streams apart. -/
theorem State.SameMachine.hostReset_eq {s t : State} (h : s.SameMachine t) (hs : s.Inv) (ht : t.Inv) :
    t.hostReset = { s.hostReset with dev := t.dev } := by
  have hmem : t.hostReset.mem = s.hostReset.mem := by
    refine Memory.ext_read ht.hostReset.image.canonical hs.hostReset.image.canonical fun a => ?_
    rw [ht.read_hostReset, hs.read_hostReset, h.roof]
    split
    · next hbelow => exact h.instructions a hbelow
    · rfl
  rw [(hostResetOperation t).1, hmem, h.roof, h.bottom, h.hasStack]
  rfl

/-- A created machine is as reset leaves it (R142). -/
theorem Image.Admitted.hostReset_created {img : Image} (himg : img.Admitted) (dev : Device) :
    (State.created img dev).hostReset = State.created img dev := by
  have hmem : (State.created img dev).hostReset.mem = (State.created img dev).mem :=
    List.filter_eq_self.mpr fun e he => by simp [Nat.not_le_of_lt (himg.created_below_roof dev e he)]
  rw [(hostResetOperation _).1, hmem]
  rfl

/-- Settles O55: the reached state is one of the created machine, which reset leaves as it is. -/
theorem resetRestoresTheCreatedMachine : Obligations.ResetRestoresTheCreatedMachine := by
  intro bytes cap memCells img dev s t himage hcreate hreach
  obtain ⟨himg, rfl⟩ := createMemory_admitted himage
  obtain rfl := Host.Outcome.next.inj ((create_own true img dev).symm.trans hcreate)
  have hs := himg.created_inv dev
  obtain ⟨ht, hsame⟩ := reachedMachinesKeepTheInvariant _ t hs hreach
  rw [hsame.hostReset_eq hs ht, himg.hostReset_created]

/-! ### The calls that observe or end a machine (R41, R87, R143) -/

/-- The stack of a machine is small enough for `get_stack_size` to return its size as a word (R41). -/
theorem State.Inv.toInt_getStackSize {s : State} (hs : s.Inv) : (getStackSize s).toInt = s.size := by
  have hsize : s.size ≤ s.bottom + 1 - s.roof := hs.stack.size_le
  have hmax : s.bottom + 1 ≤ 2 ^ 31 - 1024 := hs.sizes.bound
  rw [getStackSize, BitVec.toInt_ofNat']
  exact Int.bmod_eq_of_le (by omega) (by omega)

/-- A call of `step` returns what R87 reads off the state it leaves. -/
theorem hostCall_step {s t : State} (h : step s = .next t) :
    hostCall .step (.live s) = .next (.live t, .flag (stepReturns t)) := by
  simp [hostCall, State.answer, h]

theorem stepReturns_eq_true_iff {t : State} : stepReturns t = true ↔ t.status = .ok := decide_eq_true_iff

/-- Settles O57: the observing calls answer with the state they were given, and `step` with the one it leaves. -/
theorem hostObservations : Obligations.HostObservations :=
  ⟨fun _ => rfl, fun s hs => ⟨getStackSize s, rfl, hs.toInt_getStackSize⟩,
    fun _ t h => ⟨stepReturns t, hostCall_step h, stepReturns_eq_true_iff⟩, fun _ => rfl, fun _ => rfl⟩

end Sys2Proof.Machine
